-- ==== Sys2Proof/Word.lean ====
section
/-!
DEFINITION. The value widths of the HanChip8 CORE (spec/00_scope.md R10): every value is an unsigned bit vector.
-/

namespace Sys2Proof

/-- 8 bits: a V register, DT, ST, a memory cell, the field kk (R10). -/
abbrev Byte := BitVec 8

/-- 16 bits: PC, I, a stack entry, an instruction word, a computed address (R10). -/
abbrev Word := BitVec 16

/-- 4 bits: the fields x, y, n and a key number (R10). -/
abbrev Nibble := BitVec 4

/-- 12 bits: the field nnn (R10). -/
abbrev Addr12 := BitVec 12

end Sys2Proof
end

