-- ==== Sys2Proof/Syntax.lean ====
section
/-!
DEFINITION. The 34 instructions, one constructor per row of spec/opcode_table.json, in the table's order
(spec/30_encoding.md R74). Every operand field holds all its values (R72), so a field is a bit vector of its width.
A field the decoder does not examine (R76) is kept, last in its constructor, so that encoding loses no bit.
-/

namespace Sys2Proof

inductive Instr where
  /-- CLS; x not examined (R100, R76). -/
  | cls (x : Nibble)
  /-- RET; x not examined (R110, R76). -/
  | ret (x : Nibble)
  /-- JP nnn (R111). -/
  | jp (nnn : Addr12)
  /-- CALL nnn (R112). -/
  | call (nnn : Addr12)
  /-- SE Vx, kk (R113). -/
  | seImm (x : Nibble) (kk : Byte)
  /-- SNE Vx, kk (R114). -/
  | sneImm (x : Nibble) (kk : Byte)
  /-- SE Vx, Vy; n not examined (R115, R76). -/
  | seReg (x y n : Nibble)
  /-- LD Vx, kk (R130). -/
  | ldImm (x : Nibble) (kk : Byte)
  /-- ADD Vx, kk (R131). -/
  | addImm (x : Nibble) (kk : Byte)
  /-- LD Vx, Vy (R132). -/
  | ldReg (x y : Nibble)
  /-- OR Vx, Vy (R133). -/
  | orReg (x y : Nibble)
  /-- AND Vx, Vy (R134). -/
  | andReg (x y : Nibble)
  /-- XOR Vx, Vy (R135). -/
  | xorReg (x y : Nibble)
  /-- ADD Vx, Vy (R136). -/
  | addReg (x y : Nibble)
  /-- SUB Vx, Vy (R137). -/
  | subReg (x y : Nibble)
  /-- SHR Vx; y not read (R138, R76). -/
  | shr (x y : Nibble)
  /-- SUBN Vx, Vy (R139). -/
  | subnReg (x y : Nibble)
  /-- SHL Vx; y not read (R140, R76). -/
  | shl (x y : Nibble)
  /-- SNE Vx, Vy; n not examined (R116, R76). -/
  | sneReg (x y n : Nibble)
  /-- LD I, nnn (R150). -/
  | ldI (nnn : Addr12)
  /-- JP V0, nnn (R117). -/
  | jpV0 (nnn : Addr12)
  /-- RND Vx, kk (R170). -/
  | rnd (x : Nibble) (kk : Byte)
  /-- DRW Vx, Vy, n (R101). -/
  | drw (x y n : Nibble)
  /-- SKP Vx (R171). -/
  | skp (x : Nibble)
  /-- SKNP Vx (R172). -/
  | sknp (x : Nibble)
  /-- LD Vx, DT (R173). -/
  | ldVxDt (x : Nibble)
  /-- LD Vx, K (R174). -/
  | ldVxK (x : Nibble)
  /-- LD DT, Vx (R176). -/
  | ldDtVx (x : Nibble)
  /-- LD ST, Vx (R177). -/
  | ldStVx (x : Nibble)
  /-- ADD I, Vx (R151). -/
  | addI (x : Nibble)
  /-- LD F, Vx (R152). -/
  | ldF (x : Nibble)
  /-- LD B, Vx (R154). -/
  | ldB (x : Nibble)
  /-- LD [I], Vx (R155). -/
  | storeRegs (x : Nibble)
  /-- LD Vx, [I] (R156). -/
  | loadRegs (x : Nibble)
  deriving DecidableEq, Repr

end Sys2Proof
end

