-- ==== Sys2Proof/Decode.lean ====
section
/-!
DEFINITION. Instruction encoding (spec/30_encoding.md): the fields of a word (R70, R71), the decoder (R73), the encoder,
the opcode map with its masks (R74), and the assembler form (R78). The opcode values are the spec's own choice, the
standard CHIP-8 assignment (D32, G1; log 7).
-/

namespace Sys2Proof

/-! ## Fields (R70, R71) -/

/-- opcode = word[15:12]. -/
def opcodeOf (w : Word) : Nibble := w.extractLsb' 12 4

/-- x = word[11:8]. -/
def fieldX (w : Word) : Nibble := w.extractLsb' 8 4

/-- y = word[7:4]. -/
def fieldY (w : Word) : Nibble := w.extractLsb' 4 4

/-- n = word[3:0]. -/
def fieldN (w : Word) : Nibble := w.extractLsb' 0 4

/-- kk = word[7:0]. -/
def fieldKK (w : Word) : Byte := w.extractLsb' 0 8

/-- nnn = word[11:0]. -/
def fieldNNN (w : Word) : Addr12 := w.extractLsb' 0 12

/-- The word of two bytes; the byte at the lower address is the high one (20_memory.md R54; log 8). -/
def wordOfBytes (hi lo : Byte) : Word := (hi.setWidth 16 <<< 8) ||| lo.setWidth 16

/-- The two bytes of a word in memory order (R54). -/
def bytesOfWord (w : Word) : List Byte := [w.extractLsb' 8 8, w.extractLsb' 0 8]

/-! ## Decoder -/

/-- Why bytes are no instruction: a word of R75, by its family, or too few bytes. -/
inductive DecodeError where
  /-- Family 0x0 with kk other than 0xE0 and 0xEE. -/
  | unknownFamily0 (word : Word)
  /-- Family 0x8 with n none of 0 to 7 and 0xE. -/
  | unknownFamily8 (word : Word)
  /-- Family 0xE with kk other than 0x9E and 0xA1. -/
  | unknownFamilyE (word : Word)
  /-- Family 0xF with kk none of the nine of R74. -/
  | unknownFamilyF (word : Word)
  /-- Fewer than two bytes: every instruction is exactly 2 bytes (R77). -/
  | truncated
  deriving DecidableEq, Repr

/-- Family 0x0, selected by kk; x is not examined (R73; log 12). -/
def decodeFamily0 (w : Word) : Except DecodeError Instr :=
  match fieldKK w with
  | 0xE0#8 => .ok (.cls (fieldX w))
  | 0xEE#8 => .ok (.ret (fieldX w))
  | _ => .error (.unknownFamily0 w)

/-- Family 0x8, selected by n (R73). -/
def decodeFamily8 (w : Word) : Except DecodeError Instr :=
  match fieldN w with
  | 0x0#4 => .ok (.ldReg (fieldX w) (fieldY w))
  | 0x1#4 => .ok (.orReg (fieldX w) (fieldY w))
  | 0x2#4 => .ok (.andReg (fieldX w) (fieldY w))
  | 0x3#4 => .ok (.xorReg (fieldX w) (fieldY w))
  | 0x4#4 => .ok (.addReg (fieldX w) (fieldY w))
  | 0x5#4 => .ok (.subReg (fieldX w) (fieldY w))
  | 0x6#4 => .ok (.shr (fieldX w) (fieldY w))
  | 0x7#4 => .ok (.subnReg (fieldX w) (fieldY w))
  | 0xE#4 => .ok (.shl (fieldX w) (fieldY w))
  | _ => .error (.unknownFamily8 w)

/-- Family 0xE, selected by kk (R73). -/
def decodeFamilyE (w : Word) : Except DecodeError Instr :=
  match fieldKK w with
  | 0x9E#8 => .ok (.skp (fieldX w))
  | 0xA1#8 => .ok (.sknp (fieldX w))
  | _ => .error (.unknownFamilyE w)

/-- Family 0xF, selected by kk (R73). -/
def decodeFamilyF (w : Word) : Except DecodeError Instr :=
  match fieldKK w with
  | 0x07#8 => .ok (.ldVxDt (fieldX w))
  | 0x0A#8 => .ok (.ldVxK (fieldX w))
  | 0x15#8 => .ok (.ldDtVx (fieldX w))
  | 0x18#8 => .ok (.ldStVx (fieldX w))
  | 0x1E#8 => .ok (.addI (fieldX w))
  | 0x29#8 => .ok (.ldF (fieldX w))
  | 0x33#8 => .ok (.ldB (fieldX w))
  | 0x55#8 => .ok (.storeRegs (fieldX w))
  | 0x65#8 => .ok (.loadRegs (fieldX w))
  | _ => .error (.unknownFamilyF w)

/-- The decoder of R73 and R74: the opcode nibble selects, and in the families 0x0, 0x8, 0xE and 0xF a subfield. -/
def decodeWord (w : Word) : Except DecodeError Instr :=
  match opcodeOf w with
  | 0x0#4 => decodeFamily0 w
  | 0x1#4 => .ok (.jp (fieldNNN w))
  | 0x2#4 => .ok (.call (fieldNNN w))
  | 0x3#4 => .ok (.seImm (fieldX w) (fieldKK w))
  | 0x4#4 => .ok (.sneImm (fieldX w) (fieldKK w))
  | 0x5#4 => .ok (.seReg (fieldX w) (fieldY w) (fieldN w))
  | 0x6#4 => .ok (.ldImm (fieldX w) (fieldKK w))
  | 0x7#4 => .ok (.addImm (fieldX w) (fieldKK w))
  | 0x8#4 => decodeFamily8 w
  | 0x9#4 => .ok (.sneReg (fieldX w) (fieldY w) (fieldN w))
  | 0xA#4 => .ok (.ldI (fieldNNN w))
  | 0xB#4 => .ok (.jpV0 (fieldNNN w))
  | 0xC#4 => .ok (.rnd (fieldX w) (fieldKK w))
  | 0xD#4 => .ok (.drw (fieldX w) (fieldY w) (fieldN w))
  | 0xE#4 => decodeFamilyE w
  | _ => decodeFamilyF w

/-- Decoding from bytes: the instruction at the front and the rest (R77: always two bytes). -/
def decode : List Byte → Except DecodeError (Instr × List Byte)
  | hi :: lo :: rest =>
    match decodeWord (wordOfBytes hi lo) with
    | .ok i => .ok (i, rest)
    | .error e => .error e
  | _ => .error .truncated

/-- The bytes of the instruction whose low `nbits` bits are those of `w` and whose other bits are 0, in memory order. -/
def tableWordBytes (nbits w : Nat) : List Byte := bytesOfWord (BitVec.ofNat 16 (w % 2 ^ nbits))

/-- The instruction the decoder reads from a word numbered as spec/opcode_table.json numbers it. -/
def decodeTableWord (nbits w : Nat) : Option Instr :=
  match decode (tableWordBytes nbits w) with
  | .ok (i, _) => some i
  | .error _ => none

/-! ## Encoder -/

/-- {op, nnn} (R70). -/
def packNNN (op : Nibble) (nnn : Addr12) : Word := (op.setWidth 16 <<< 12) ||| nnn.setWidth 16

/-- {op, x, kk} (R70). -/
def packXKK (op x : Nibble) (kk : Byte) : Word :=
  (op.setWidth 16 <<< 12) ||| (x.setWidth 16 <<< 8) ||| kk.setWidth 16

/-- {op, x, y, n} (R70). -/
def packXYN (op x y n : Nibble) : Word :=
  (op.setWidth 16 <<< 12) ||| (x.setWidth 16 <<< 8) ||| (y.setWidth 16 <<< 4) ||| n.setWidth 16

/-- The word of an instruction (R74). -/
def encode : Instr → Word
  | .cls x => packXKK 0x0 x 0xE0
  | .ret x => packXKK 0x0 x 0xEE
  | .jp nnn => packNNN 0x1 nnn
  | .call nnn => packNNN 0x2 nnn
  | .seImm x kk => packXKK 0x3 x kk
  | .sneImm x kk => packXKK 0x4 x kk
  | .seReg x y n => packXYN 0x5 x y n
  | .ldImm x kk => packXKK 0x6 x kk
  | .addImm x kk => packXKK 0x7 x kk
  | .ldReg x y => packXYN 0x8 x y 0x0
  | .orReg x y => packXYN 0x8 x y 0x1
  | .andReg x y => packXYN 0x8 x y 0x2
  | .xorReg x y => packXYN 0x8 x y 0x3
  | .addReg x y => packXYN 0x8 x y 0x4
  | .subReg x y => packXYN 0x8 x y 0x5
  | .shr x y => packXYN 0x8 x y 0x6
  | .subnReg x y => packXYN 0x8 x y 0x7
  | .shl x y => packXYN 0x8 x y 0xE
  | .sneReg x y n => packXYN 0x9 x y n
  | .ldI nnn => packNNN 0xA nnn
  | .jpV0 nnn => packNNN 0xB nnn
  | .rnd x kk => packXKK 0xC x kk
  | .drw x y n => packXYN 0xD x y n
  | .skp x => packXKK 0xE x 0x9E
  | .sknp x => packXKK 0xE x 0xA1
  | .ldVxDt x => packXKK 0xF x 0x07
  | .ldVxK x => packXKK 0xF x 0x0A
  | .ldDtVx x => packXKK 0xF x 0x15
  | .ldStVx x => packXKK 0xF x 0x18
  | .addI x => packXKK 0xF x 0x1E
  | .ldF x => packXKK 0xF x 0x29
  | .ldB x => packXKK 0xF x 0x33
  | .storeRegs x => packXKK 0xF x 0x55
  | .loadRegs x => packXKK 0xF x 0x65

/-- The bytes of an instruction, in memory order. -/
def encodeBytes (i : Instr) : List Byte := bytesOfWord (encode i)

/-! ## The opcode map of R74, as the spec prints it -/

/-- One row of R74: its number, its mask and its match. -/
structure OpcodeRow where
  number : Nat
  mask : Word
  value : Word
  deriving DecidableEq, Repr

/-- "A word matches row r when (word & mask_r) == match_r" (R74). -/
def OpcodeRow.matchesWord (r : OpcodeRow) (w : Word) : Bool := w &&& r.mask == r.value

/-- The 34 rows (R74). -/
def opcodeMap : List OpcodeRow :=
  [⟨1, 0xF0FF, 0x00E0⟩, ⟨2, 0xF0FF, 0x00EE⟩, ⟨3, 0xF000, 0x1000⟩, ⟨4, 0xF000, 0x2000⟩, ⟨5, 0xF000, 0x3000⟩,
   ⟨6, 0xF000, 0x4000⟩, ⟨7, 0xF000, 0x5000⟩, ⟨8, 0xF000, 0x6000⟩, ⟨9, 0xF000, 0x7000⟩] ++
  [⟨10, 0xF00F, 0x8000⟩, ⟨11, 0xF00F, 0x8001⟩, ⟨12, 0xF00F, 0x8002⟩, ⟨13, 0xF00F, 0x8003⟩, ⟨14, 0xF00F, 0x8004⟩,
   ⟨15, 0xF00F, 0x8005⟩, ⟨16, 0xF00F, 0x8006⟩, ⟨17, 0xF00F, 0x8007⟩, ⟨18, 0xF00F, 0x800E⟩] ++
  [⟨19, 0xF000, 0x9000⟩, ⟨20, 0xF000, 0xA000⟩, ⟨21, 0xF000, 0xB000⟩, ⟨22, 0xF000, 0xC000⟩, ⟨23, 0xF000, 0xD000⟩] ++
  [⟨24, 0xF0FF, 0xE09E⟩, ⟨25, 0xF0FF, 0xE0A1⟩, ⟨26, 0xF0FF, 0xF007⟩, ⟨27, 0xF0FF, 0xF00A⟩, ⟨28, 0xF0FF, 0xF015⟩,
   ⟨29, 0xF0FF, 0xF018⟩, ⟨30, 0xF0FF, 0xF01E⟩, ⟨31, 0xF0FF, 0xF029⟩, ⟨32, 0xF0FF, 0xF033⟩, ⟨33, 0xF0FF, 0xF055⟩,
   ⟨34, 0xF0FF, 0xF065⟩]

/-- The number of an instruction's row in R74. -/
def Instr.rowNumber : Instr → Nat
  | .cls _ => 1
  | .ret _ => 2
  | .jp _ => 3
  | .call _ => 4
  | .seImm _ _ => 5
  | .sneImm _ _ => 6
  | .seReg _ _ _ => 7
  | .ldImm _ _ => 8
  | .addImm _ _ => 9
  | .ldReg _ _ => 10
  | .orReg _ _ => 11
  | .andReg _ _ => 12
  | .xorReg _ _ => 13
  | .addReg _ _ => 14
  | .subReg _ _ => 15
  | .shr _ _ => 16
  | .subnReg _ _ => 17
  | .shl _ _ => 18
  | .sneReg _ _ _ => 19
  | .ldI _ => 20
  | .jpV0 _ => 21
  | .rnd _ _ => 22
  | .drw _ _ _ => 23
  | .skp _ => 24
  | .sknp _ => 25
  | .ldVxDt _ => 26
  | .ldVxK _ => 27
  | .ldDtVx _ => 28
  | .ldStVx _ => 29
  | .addI _ => 30
  | .ldF _ => 31
  | .ldB _ => 32
  | .storeRegs _ => 33
  | .loadRegs _ => 34

/-! ## Assembler form (R78) -/

/-- One hexadecimal digit, upper case (R78). -/
def hexChar (d : Nibble) : Char := ['0', '1', '2', '3', '4', '5', '6', '7', '8', '9', 'A', 'B', 'C', 'D', 'E', 'F'][d.toNat]'d.isLt

/-- One hexadecimal digit as text. -/
def hexDigit (d : Nibble) : String := String.singleton (hexChar d)

/-- A register's spelling, V0 to VF (R78). -/
def regName (x : Nibble) : String := "V" ++ hexDigit x

/-- kk as the source writes it, for example 0x05 (R78; the number of digits is free, log 33). -/
def hexByte (kk : Byte) : String := "0x" ++ hexDigit (kk.extractLsb' 4 4) ++ hexDigit (kk.extractLsb' 0 4)

/-- nnn, for example 0x206 (R78; log 33). -/
def hexAddr (nnn : Addr12) : String :=
  "0x" ++ hexDigit (nnn.extractLsb' 8 4) ++ hexDigit (nnn.extractLsb' 4 4) ++ hexDigit (nnn.extractLsb' 0 4)

/-- The assembler form of an instruction, the column "assembler form" of R74 with R78's spellings. -/
def disassemble : Instr → String
  | .cls _ => "CLS"
  | .ret _ => "RET"
  | .jp nnn => "JP " ++ hexAddr nnn
  | .call nnn => "CALL " ++ hexAddr nnn
  | .seImm x kk => "SE " ++ regName x ++ ", " ++ hexByte kk
  | .sneImm x kk => "SNE " ++ regName x ++ ", " ++ hexByte kk
  | .seReg x y _ => "SE " ++ regName x ++ ", " ++ regName y
  | .ldImm x kk => "LD " ++ regName x ++ ", " ++ hexByte kk
  | .addImm x kk => "ADD " ++ regName x ++ ", " ++ hexByte kk
  | .ldReg x y => "LD " ++ regName x ++ ", " ++ regName y
  | .orReg x y => "OR " ++ regName x ++ ", " ++ regName y
  | .andReg x y => "AND " ++ regName x ++ ", " ++ regName y
  | .xorReg x y => "XOR " ++ regName x ++ ", " ++ regName y
  | .addReg x y => "ADD " ++ regName x ++ ", " ++ regName y
  | .subReg x y => "SUB " ++ regName x ++ ", " ++ regName y
  | .shr x _ => "SHR " ++ regName x
  | .subnReg x y => "SUBN " ++ regName x ++ ", " ++ regName y
  | .shl x _ => "SHL " ++ regName x
  | .sneReg x y _ => "SNE " ++ regName x ++ ", " ++ regName y
  | .ldI nnn => "LD I, " ++ hexAddr nnn
  | .jpV0 nnn => "JP V0, " ++ hexAddr nnn
  | .rnd x kk => "RND " ++ regName x ++ ", " ++ hexByte kk
  | .drw x y n => "DRW " ++ regName x ++ ", " ++ regName y ++ ", " ++ toString n.toNat
  | .skp x => "SKP " ++ regName x
  | .sknp x => "SKNP " ++ regName x
  | .ldVxDt x => "LD " ++ regName x ++ ", DT"
  | .ldVxK x => "LD " ++ regName x ++ ", K"
  | .ldDtVx x => "LD DT, " ++ regName x
  | .ldStVx x => "LD ST, " ++ regName x
  | .addI x => "ADD I, " ++ regName x
  | .ldF x => "LD F, " ++ regName x
  | .ldB x => "LD B, " ++ regName x
  | .storeRegs x => "LD [I], " ++ regName x
  | .loadRegs x => "LD " ++ regName x ++ ", [I]"

end Sys2Proof
end

