-- ==== Sys2Proof/Machine/Display.lean ====
section
/-!
DEFINITION. DISP (spec/10_state.md R29): 64 x 32 pixels of one bit, and what DRW does to them (41_display.md R101 to
R105).
-/

namespace Sys2Proof.Machine

/-- DISP: 32 rows, top to bottom; bit x of a row is the pixel of column x, left to right (R29). -/
abbrev Display := Vector (BitVec 64) 32

/-- Every pixel 0. -/
def Display.clear : Display := Vector.replicate 32 0

/-- DISP[y][x] (R29). -/
def Display.pixel (d : Display) (y : Fin 32) (x : Fin 64) : Bool := (d[y.val]'y.isLt).getLsbD x.val

/-- DISP[y][x] <- DISP[y][x] ^ 1. -/
def Display.flip (d : Display) (y : Fin 32) (x : Fin 64) : Display :=
  d.set y.val ((d[y.val]'y.isLt) ^^^ BitVec.twoPow 64 x.val) y.isLt

/-- The body of DRW's inner loop (R101): a set sprite bit flips its pixel, and a pixel that was 1 is a collision. -/
def Display.drawPixel (bit : Bool) (y : Fin 32) (x : Fin 64) (acc : Display × Bool) : Display × Bool :=
  if bit then (acc.1.flip y x, acc.2 || acc.1.pixel y x) else acc

/-- One sprite byte at row `y` from column `cx` on: bit 7 is column 0 (R102; log 9), columns wrap mod 64 (R103). -/
def Display.drawRow (b : Byte) (cx : Nat) (y : Fin 32) (acc : Display × Bool) : Display × Bool :=
  (List.range 8).foldl (fun acc c => Display.drawPixel (b.getLsbD (7 - c)) y (Fin.ofNat 64 (cx + c)) acc) acc

/-- The sprite bytes, top row first, from row `cy` on; rows wrap mod 32 (R103). -/
def Display.drawRows (cx : Nat) : Nat → List Byte → Display × Bool → Display × Bool
  | _, [], acc => acc
  | cy, b :: bs, acc => Display.drawRows cx (cy + 1) bs (Display.drawRow b cx (Fin.ofNat 32 cy) acc)

end Sys2Proof.Machine
end

