-- ==== Sys2Proof/Config.lean ====
section
/-!
DEFINITION. The fixed sizes of the block (spec/00_scope.md R7), the shape of its font parameters (R8), and the one free
value the spec leaves to the environment (45_timers_keys_random.md R170).
-/

namespace Sys2Proof

/-- Memory bytes (R7, 20_memory.md R50). -/
def Config.memSize : Nat := 4096

/-- Program load and start address (R7, R51). -/
def Config.loadBase : Word := 0x200

/-- The largest program: 0x1000 minus 0x200 bytes (R7, R231). -/
def Config.maxImage : Nat := 3584

/-- The font: 16 glyphs of 5 bytes (R7, R153). -/
def Config.fontBytes : Nat := 80

/-- The parameters FONT_BASE and FONT_DATA of R8. DESIGN CHOICE (log 5): they are plain data in `State.env`, so that a
statement about every state holds for every value of them. -/
structure Font where
  /-- FONT_BASE: the address of glyph 0. -/
  base : Word
  /-- FONT_DATA: the font bytes, glyph 0 first. -/
  data : List Byte
  deriving DecidableEq, Repr

/-- The n-th byte of rnd[7:0] that the environment supplies of itself (R170, D19). A free value: "any of the 256
values", no law, so it has no body (log 4). -/
opaque Config.freeRnd : Nat → Byte

end Sys2Proof
end

