-- ==== Sys2Proof/Machine/Memory.lean ====
section
/-!
DEFINITION. MEM (spec/20_memory.md): one space of 4096 bytes, every address readable and writable (R50), each byte
address reduced mod 4096 on its own (R53). A memory is a list of (address, byte) pairs in one canonical form.
-/

namespace Sys2Proof.Machine

/-- MEM: the cells that differ from their reset contents, addresses strictly rising (`Memory.wf`). -/
abbrev Memory := List Host.Cell

/-- The default FONT_DATA: the table of 44_index_memory.md R153, glyphs 0 to F (D31, G4; log 5). -/
def defaultFontData : List Byte :=
  [0xF0, 0x90, 0x90, 0x90, 0xF0] ++ [0x20, 0x60, 0x20, 0x20, 0x70] ++
  [0xF0, 0x10, 0xF0, 0x80, 0xF0] ++ [0xF0, 0x10, 0xF0, 0x10, 0xF0] ++
  [0x90, 0x90, 0xF0, 0x10, 0x10] ++ [0xF0, 0x80, 0xF0, 0x10, 0xF0] ++
  [0xF0, 0x80, 0xF0, 0x90, 0xF0] ++ [0xF0, 0x10, 0x20, 0x40, 0x40] ++
  [0xF0, 0x90, 0xF0, 0x90, 0xF0] ++ [0xF0, 0x90, 0xF0, 0x10, 0xF0] ++
  [0xF0, 0x90, 0xF0, 0x90, 0x90] ++ [0xE0, 0x90, 0xE0, 0x90, 0xE0] ++
  [0xF0, 0x80, 0x80, 0x80, 0xF0] ++ [0xE0, 0x90, 0x90, 0x90, 0xE0] ++
  [0xF0, 0x80, 0xF0, 0x80, 0xF0] ++ [0xF0, 0x80, 0xF0, 0x80, 0x80]

/-- The default parameters of 00_scope.md R8: FONT_BASE 0x000 and the table above (D15, D31; log 5). -/
def defaultFont : Font := { base := 0x000, data := defaultFontData }

/-- What an address that is not listed reads as: its contents after reset with the default font (R50, R51: zero but for
the font; log 28). -/
def Memory.unlisted (a : Nat) : Byte :=
  if a < defaultFont.base.toNat then 0 else defaultFont.data.getD (a - defaultFont.base.toNat) 0

/-- The byte at a cell. -/
def Memory.read : Memory → Nat → Byte
  | [], a => Memory.unlisted a
  | c :: m, a => if c.1 = a then c.2 else Memory.read m a

/-- Lists a cell before the first cell with a greater address. -/
def Memory.insertCell (a : Nat) (b : Byte) : Memory → Memory
  | [] => [(a, b)]
  | c :: m => if a < c.1 then (a, b) :: c :: m else c :: Memory.insertCell a b m

/-- Writes one byte and keeps the canonical form: a cell holding what it would read as unlisted is not listed. -/
def Memory.write (m : Memory) (a : Nat) (b : Byte) : Memory :=
  if b = Memory.unlisted a then m.filter (fun c => c.1 != a)
  else Memory.insertCell a b (m.filter (fun c => c.1 != a))

/-- The canonical form: addresses strictly rising and inside the space, and no cell equal to what it would read as
unlisted. -/
def Memory.wf (m : Memory) : Bool :=
  decide (m.Pairwise (fun c d => c.1 < d.1))
    && m.all (fun c => decide (c.1 < Config.memSize) && c.2 != Memory.unlisted c.1)

/-- The cell a 16-bit address reaches: MEM[addr mod 4096] (R53; log 10). -/
def cellOf (a : Word) : Nat := a.toNat % Config.memSize

/-- MemRead(addr, n) (00_scope.md R11, R53): n bytes from `a` on, each address reduced on its own. -/
def Memory.readBytes (m : Memory) (a : Word) : Nat → List Byte
  | 0 => []
  | n + 1 => m.read (cellOf a) :: Memory.readBytes m (a + 1) n

/-- MemWrite(addr, n, bytes) (00_scope.md R11, R53): byte k to `a` + k, lowest k first. -/
def Memory.writeBytes (m : Memory) (a : Word) : List Byte → Memory
  | [] => m
  | b :: bs => Memory.writeBytes (m.write (cellOf a) b) (a + 1) bs

/-- Memory with 0x00 in every cell (the first line of Init, 70_reset_and_hazards.md R230). -/
def Memory.zeroed : Memory :=
  Memory.writeBytes [] defaultFont.base (List.replicate Config.fontBytes 0)

/-- Memory after the first two lines of Init (R230): zero everywhere, then FONT_DATA at FONT_BASE. -/
def Memory.initial (f : Font) : Memory := Memory.zeroed.writeBytes f.base f.data

end Sys2Proof.Machine
end

