-- ==== Sys2Proof/Machine/State.lean ====
section
/-!
DEFINITION. The state of the block (spec/10_state.md, Inventory), and beside it the model's own plain data: the output
trace and the environment's inputs and parameters (R36).
-/

namespace Sys2Proof.Machine

/-- Why the block halted (60_exceptions.md R200). -/
inductive Cause where
  /-- CALL with the stack full. -/
  | stackOverflow
  /-- RET with the stack empty. -/
  | stackUnderflow
  /-- Load of an image longer than 3584 bytes. -/
  | programTooLarge
  /-- The Halt event. -/
  | externalHalt
  deriving DecidableEq, Repr

/-- RUN (10_state.md R31). -/
inductive RunState where
  /-- No program loaded since power-on. -/
  | idle
  /-- Each Step executes one instruction. -/
  | running
  /-- An LD Vx,K waits for a key press; `x` is its destination. -/
  | awaitingKey (x : Nibble)
  /-- A fatal condition or the Halt input stopped the block. -/
  | halted (cause : Cause)
  deriving DecidableEq, Repr

/-- One diagnostic event Diag(pc, word) (60_exceptions.md R203). -/
structure Diag where
  pc : Word
  word : Word
  deriving DecidableEq, Repr

/-- What the environment does to the block, one atomic thing at a time: the six events of 10_state.md R40, and a change
of the key levels on the pins keys[15:0] (log 3). -/
inductive Input where
  | powerOnReset
  | load (image : List Byte)
  | step
  | tick
  | keyPress (k : Nibble)
  | halt
  | keyLevels (levels : BitVec 16)
  deriving DecidableEq, Repr

/-- The environment, as plain data. It is not state of the block (10_state.md R36). -/
structure Env where
  /-- The inputs still to come, oldest first; a Step comes when there is none (SCHEDULE, 00_scope.md R8; log 1). -/
  pending : List Input
  /-- keys[15:0], bit k is 1 when key k is down (10_state.md R30, R40; log 3). -/
  keys : BitVec 16
  /-- Bytes of rnd[7:0] already fixed for the coming RNDs, next first (45_timers_keys_random.md R170; log 4). -/
  rndSupply : List Byte
  /-- How many free bytes `Config.freeRnd` has supplied (R170; log 4). -/
  rndDraws : Nat
  /-- FONT_BASE and FONT_DATA (00_scope.md R8; log 5). -/
  font : Font
  deriving DecidableEq, Repr

structure State where
  /-- MEM (20_memory.md R50). -/
  mem : Memory
  /-- V0 to VF (R20). -/
  v : Vector Byte 16
  /-- I (R23). -/
  i : Word
  /-- PC (R24). -/
  pc : Word
  /-- SP: the number of active entries, 0 to 16 (R26; log 31). -/
  sp : Fin 17
  /-- S[0] to S[15] (R26). -/
  stack : Vector Word 16
  /-- DT (R27). -/
  dt : Byte
  /-- ST (R28). -/
  st : Byte
  /-- DISP (R29). -/
  disp : Display
  /-- RUN (R31). -/
  run : RunState
  /-- FAULT_CAUSE (R32). -/
  faultCause : BitVec 3
  /-- FAULT_PC (R32). -/
  faultPc : Word
  /-- The output trace: the Diag events so far, oldest first (60_exceptions.md R203; log 15). -/
  diags : List Diag
  /-- The environment's inputs and parameters (R36). -/
  env : Env
  deriving DecidableEq, Repr

/-- The machine right after PowerOnReset (70_reset_and_hazards.md R230), with nothing pending, all keys up, no random
byte fixed and the default font (log 1, 3, 4, 5, 20). -/
def State.reset : State where
  mem := []
  v := Vector.replicate 16 0
  i := 0x0000
  pc := Config.loadBase
  sp := 0
  stack := Vector.replicate 16 0
  dt := 0x00
  st := 0x00
  disp := Display.clear
  run := .idle
  faultCause := 0
  faultPc := 0x0000
  diags := []
  env := { pending := [], keys := 0, rndSupply := [], rndDraws := 0, font := defaultFont }

/-- The reasons a step can stop the model: none. The spec gives every condition a next state: a fatal one halts the
block (60_exceptions.md R201), an unknown word is reported (R203), and no access faults (20_memory.md R53). Safe: there
is nothing to raise (log 25). -/
inductive Fault where
  deriving DecidableEq, Repr

/-- The reasons a step can have no meaning. -/
inductive Refusal where
  /-- The instruction has no meaning in the model yet; raised by `exec`'s refused arms alone, of which there is none.
  Safe. -/
  | notModelled (mnemonic : String)
  deriving DecidableEq, Repr

/-- What a step, or the meaning of an instruction, answers. -/
abbrev Result := Host.Outcome State Fault Refusal

end Sys2Proof.Machine
end

