-- ==== Sys2Proof/Machine/Ops.lean ====
section
/-!
DEFINITION. The named operations over the state: registers, PC, memory, stack, the fault entry, the diagnostic, and the
environment's inputs. Every meaning is written over these.
-/

namespace Sys2Proof.Machine

/-! ## Fields -/

/-- V[x] (spec/00_scope.md R11). -/
def State.getV (s : State) (x : Nibble) : Byte := s.v[x.toNat]'x.isLt

/-- V[x] <- b (R11). -/
def State.setV (s : State) (x : Nibble) (b : Byte) : State := { s with v := s.v.set x.toNat b x.isLt }

/-- PC <- a. -/
def State.setPc (s : State) (a : Word) : State := { s with pc := a }

/-- I <- a. -/
def State.setI (s : State) (a : Word) : State := { s with i := a }

/-- DT <- b. -/
def State.setDt (s : State) (b : Byte) : State := { s with dt := b }

/-- ST <- b. -/
def State.setSt (s : State) (b : Byte) : State := { s with st := b }

/-- DISP <- d. -/
def State.setDisp (s : State) (d : Display) : State := { s with disp := d }

/-- RUN <- r. -/
def State.setRun (s : State) (r : RunState) : State := { s with run := r }

/-- The environment becomes `e`. -/
def State.setEnv (s : State) (e : Env) : State := { s with env := e }

/-! ## PC -/

/-- The advance of 40_execution_cycle.md R91: PC <- (PC + 2) mod 65536. -/
def State.advance (s : State) : State := s.setPc (s.pc + 2)

/-- A skip: a further 2 when the condition holds (R91, 42_control_flow.md R113). -/
def State.skipIf (s : State) (c : Bool) : State := if c then s.advance else s

/-! ## Memory -/

/-- MemRead(a, 1). -/
def State.readByte (s : State) (a : Word) : Byte := s.mem.read (cellOf a)

/-- MemRead(a, n) (00_scope.md R11). -/
def State.readBytes (s : State) (a : Word) (n : Nat) : List Byte := s.mem.readBytes a n

/-- MemWrite(a, n, bytes), n the number of the bytes (R11). -/
def State.writeBytes (s : State) (a : Word) (bs : List Byte) : State := { s with mem := s.mem.writeBytes a bs }

/-- The word of a step: MemRead(PC, 1) is its high byte, MemRead(PC + 1, 1) its low byte (30_encoding.md R71). -/
def State.fetchWord (s : State) : Word := wordOfBytes (s.readByte s.pc) (s.readByte (s.pc + 1))

/-! ## Stack (10_state.md R26) -/

/-- S[SP] <- w; SP <- SP + 1. Nothing when the stack already holds 16 entries. -/
def State.push (s : State) (w : Word) : Option State :=
  if h : s.sp.val < 16 then
    some { s with stack := s.stack.set s.sp.val w h, sp := ⟨s.sp.val + 1, Nat.succ_lt_succ h⟩ }
  else none

/-- S[SP - 1], and SP <- SP - 1; the popped entry keeps its value. Nothing when the stack is empty. -/
def State.pop (s : State) : Option (Word × State) :=
  if h : s.sp.val = 0 then none
  else
    some (s.stack[s.sp.val - 1]'(by omega), { s with sp := ⟨s.sp.val - 1, by omega⟩ })

/-! ## Fault entry (60_exceptions.md R201) and the diagnostic (R203) -/

/-- The code of a cause in FAULT_CAUSE (R200, 10_state.md R32; log 14). -/
def Cause.code : Cause → BitVec 3
  | .stackOverflow => 1
  | .stackUnderflow => 2
  | .programTooLarge => 3
  | .externalHalt => 4

/-- Entering Halted: FAULT_CAUSE <- cause; FAULT_PC <- PC; RUN <- Halted(cause). Applied to the state BEFORE the failing
instruction, whose PC is the instruction's address, so that none of its writes takes effect, the advance included (R201;
log 13). There is no return from it (R202). -/
def State.raiseFault (s : State) (c : Cause) : State :=
  { s with faultCause := c.code, faultPc := s.pc, run := .halted c }

/-- An unknown word at PC: PC <- (a + 2) mod 65536; emit Diag(a, word) (40_execution_cycle.md R94; log 15). -/
def State.unknownWord (s : State) (word : Word) : State :=
  { s with pc := s.pc + 2, diags := s.diags ++ [⟨s.pc, word⟩] }

/-! ## The environment -/

/-- draw Rnd() (R11, 45_timers_keys_random.md R170): the next byte already fixed, else the next free byte (log 4). -/
def Env.nextRnd (e : Env) : Byte :=
  match e.rndSupply with
  | b :: _ => b
  | [] => Config.freeRnd e.rndDraws

/-- The environment after a draw. -/
def Env.afterRnd (e : Env) : Env :=
  match e.rndSupply with
  | _ :: bs => { e with rndSupply := bs }
  | [] => { e with rndDraws := e.rndDraws + 1 }

/-- KeyDown(k): the level of key k (R11, 10_state.md R30). -/
def Env.keyDown (e : Env) (k : Nibble) : Bool := e.keys.getLsbD k.toNat

/-- The next input: the oldest pending one, or a Step when none is pending (log 1). -/
def State.nextInput (s : State) : Input := s.env.pending.headD .step

/-- The state once the next input is taken from the pending ones. -/
def State.dropInput (s : State) : State := s.setEnv { s.env with pending := s.env.pending.tail }

/-- The place of an input among simultaneous ones: PowerOnReset, Load, Halt, Step, KeyPress (ascending key number), Tick
(10_state.md R41); the key levels settle before any of them (log 2). -/
def Input.rank : Input → Nat
  | .keyLevels _ => 0
  | .powerOnReset => 1
  | .load _ => 2
  | .halt => 3
  | .step => 4
  | .keyPress k => 5 + k.toNat
  | .tick => 21

/-- Puts an input before the first one of its rank or a later one. -/
def insertInput (e : Input) : List Input → List Input
  | [] => [e]
  | f :: fs => if e.rank ≤ f.rank then e :: f :: fs else f :: insertInput e fs

/-- The order in which inputs that arrive together take effect (R41). -/
def orderInputs : List Input → List Input
  | [] => []
  | e :: es => insertInput e (orderInputs es)

/-- Inputs that arrive at the same time join the pending ones, in the order of R41. -/
def State.arrive (s : State) (together : List Input) : State :=
  s.setEnv { s.env with pending := s.env.pending ++ orderInputs together }

/-! ## Placing an instruction -/

/-- The state whose next input is a Step that executes the instruction of the word `w` (low `nbits` bits, the others 0):
its bytes at PC, RUN = Running, nothing pending. It stands for a Load (log 6). -/
def State.placeInstruction (s : State) (nbits w : Nat) : State :=
  ((s.writeBytes s.pc (tableWordBytes nbits w)).setRun .running).setEnv { s.env with pending := [] }

end Sys2Proof.Machine
end

