-- ==== Sys2Proof/Machine/Flags.lean ====
section
/-!
DEFINITION. The flags, all carried in VF (spec/10_state.md R21, R22; R33: there are no others). Each is a truth value
computed from the operands as they were before the instruction; `State.setFlag` is the write, and an instruction makes it
last (40_execution_cycle.md R95).
-/

namespace Sys2Proof.Machine

/-- V[0xF] <- f ? 1 : 0 (R22). -/
def State.setFlag (s : State) (f : Bool) : State := s.setV 0xF (if f then 1 else 0)

/-- Carry of ADD Vx,Vy: the exact unsigned sum exceeds 255 (43_alu.md R136). -/
def carryOf (a b : Byte) : Bool := decide (255 < a.toNat + b.toNat)

/-- The strict unsigned comparison of SUB and SUBN: 1 iff a > b (R137, R139). -/
def greaterOf (a b : Byte) : Bool := decide (b.toNat < a.toNat)

/-- The bit SHR shifts out (R138). -/
def lowBit (a : Byte) : Bool := a.getLsbD 0

/-- The bit SHL shifts out (R140). -/
def highBit (a : Byte) : Bool := a.getLsbD 7

end Sys2Proof.Machine
end

