-- ==== Sys2Proof/Machine/Operands.lean ====
section
/-!
DEFINITION. The operand forms beyond a register and an immediate (spec/30_encoding.md R72): widened fields, key and glyph
numbers, decimal digits, and the register blocks of LD [I],Vx and LD Vx,[I].
-/

namespace Sys2Proof.Machine

/-- zext_16 of a 12-bit address (00_scope.md R10). -/
def addrOf (nnn : Addr12) : Word := nnn.setWidth 16

/-- zext_16 of a byte (R10). -/
def wordOf (b : Byte) : Word := b.setWidth 16

/-- The low nibble of a byte: the key number of SKP and SKNP (45_timers_keys_random.md R171) and the glyph number of LD F
(44_index_memory.md R152; log 17). -/
def lowNibble (b : Byte) : Nibble := b.setWidth 4

/-- (FONT_BASE + 5 * d) mod 65536 (R152). -/
def Env.glyphAddr (e : Env) (d : Nibble) : Word := BitVec.ofNat 16 (e.font.base.toNat + 5 * d.toNat)

/-- The three decimal digits, hundreds first (R154). -/
def decimalDigits (b : Byte) : List Byte :=
  [BitVec.ofNat 8 (b.toNat / 100), BitVec.ofNat 8 (b.toNat / 10 % 10), BitVec.ofNat 8 (b.toNat % 10)]

/-- [V[0], ..., V[x]] (R155). -/
def State.regsUpTo (s : State) (x : Nibble) : List Byte := s.v.toList.take (x.toNat + 1)

/-- V[k] <- b[0], V[k + 1] <- b[1], ... (R156). -/
def writeRegs (v : Vector Byte 16) : Nat → List Byte → Vector Byte 16
  | _, [] => v
  | k, b :: bs => writeRegs (v.setIfInBounds k b) (k + 1) bs

/-- V[0] <- b[0], V[1] <- b[1], ... (R156). -/
def State.setRegsFrom0 (s : State) (bs : List Byte) : State := { s with v := writeRegs s.v 0 bs }

end Sys2Proof.Machine
end

