-- ==== Sys2Proof/Machine/AluInstrs.lean ====
section
/-!
DEFINITION. Register arithmetic, logic and shifts (spec/43_alu.md). Operands are read from the state before the
instruction; a flag is written last (R95), so that with x = 0xF the flag survives (10_state.md R21).
-/

namespace Sys2Proof.Machine

/-- LD Vx, kk (R130). -/
def execLdImm (x : Nibble) (kk : Byte) (s : State) : Result := .next (s.advance.setV x kk)

/-- ADD Vx, kk (R131): mod 256, no flag. -/
def execAddImm (x : Nibble) (kk : Byte) (s : State) : Result := .next (s.advance.setV x (s.getV x + kk))

/-- LD Vx, Vy (R132). -/
def execLdReg (x y : Nibble) (s : State) : Result := .next (s.advance.setV x (s.getV y))

/-- OR Vx, Vy (R133): no flag. -/
def execOrReg (x y : Nibble) (s : State) : Result := .next (s.advance.setV x (s.getV x ||| s.getV y))

/-- AND Vx, Vy (R134): no flag. -/
def execAndReg (x y : Nibble) (s : State) : Result := .next (s.advance.setV x (s.getV x &&& s.getV y))

/-- XOR Vx, Vy (R135): no flag. -/
def execXorReg (x y : Nibble) (s : State) : Result := .next (s.advance.setV x (s.getV x ^^^ s.getV y))

/-- ADD Vx, Vy (R136): VF <- carry. -/
def execAddReg (x y : Nibble) (s : State) : Result :=
  .next ((s.advance.setV x (s.getV x + s.getV y)).setFlag (carryOf (s.getV x) (s.getV y)))

/-- SUB Vx, Vy (R137): VF <- V[x] > V[y], strict. -/
def execSubReg (x y : Nibble) (s : State) : Result :=
  .next ((s.advance.setV x (s.getV x - s.getV y)).setFlag (greaterOf (s.getV x) (s.getV y)))

/-- SHR Vx (R138): VF <- bit 0 before the shift; y is not read. -/
def execShr (x _y : Nibble) (s : State) : Result :=
  .next ((s.advance.setV x (s.getV x >>> 1)).setFlag (lowBit (s.getV x)))

/-- SUBN Vx, Vy (R139): V[x] <- V[y] - V[x]; VF <- V[y] > V[x], strict. -/
def execSubnReg (x y : Nibble) (s : State) : Result :=
  .next ((s.advance.setV x (s.getV y - s.getV x)).setFlag (greaterOf (s.getV y) (s.getV x)))

/-- SHL Vx (R140): VF <- bit 7 before the shift; y is not read. -/
def execShl (x _y : Nibble) (s : State) : Result :=
  .next ((s.advance.setV x (s.getV x <<< 1)).setFlag (highBit (s.getV x)))

end Sys2Proof.Machine
end

