-- ==== Sys2Proof/Machine/ControlInstrs.lean ====
section
/-!
DEFINITION. Control transfer (spec/42_control_flow.md). A meaning takes the state with PC at the instruction; targets
have no alignment or range check (R118; log 10, 11). A stack fault is taken from the state before the advance, so PC
stays at the instruction (60_exceptions.md R201).
-/

namespace Sys2Proof.Machine

/-- RET (R110): PC <- S[SP - 1]; SP <- SP - 1; StackUnderflow when SP = 0. -/
def execRet (_x : Nibble) (s : State) : Result :=
  match s.advance.pop with
  | none => .next (s.raiseFault .stackUnderflow)
  | some (target, t) => .next (t.setPc target)

/-- JP nnn (R111): PC <- zext_16(nnn). -/
def execJp (nnn : Addr12) (s : State) : Result := .next (s.advance.setPc (addrOf nnn))

/-- CALL nnn (R112): push the advanced PC; PC <- zext_16(nnn); StackOverflow when SP = 16. -/
def execCall (nnn : Addr12) (s : State) : Result :=
  match s.advance.push s.advance.pc with
  | none => .next (s.raiseFault .stackOverflow)
  | some t => .next (t.setPc (addrOf nnn))

/-- SE Vx, kk (R113). -/
def execSeImm (x : Nibble) (kk : Byte) (s : State) : Result := .next (s.advance.skipIf (s.getV x == kk))

/-- SNE Vx, kk (R114). -/
def execSneImm (x : Nibble) (kk : Byte) (s : State) : Result := .next (s.advance.skipIf (s.getV x != kk))

/-- SE Vx, Vy (R115). -/
def execSeReg (x y _n : Nibble) (s : State) : Result := .next (s.advance.skipIf (s.getV x == s.getV y))

/-- SNE Vx, Vy (R116). -/
def execSneReg (x y _n : Nibble) (s : State) : Result := .next (s.advance.skipIf (s.getV x != s.getV y))

/-- JP V0, nnn (R117): PC <- (zext_16(nnn) + V[0]) mod 65536. -/
def execJpV0 (nnn : Addr12) (s : State) : Result := .next (s.advance.setPc (addrOf nnn + wordOf (s.getV 0)))

end Sys2Proof.Machine
end

