-- ==== Sys2Proof/Machine/DeviceInstrs.lean ====
section
/-!
DEFINITION. The random byte, the keypad and the timers (spec/45_timers_keys_random.md).
-/

namespace Sys2Proof.Machine

/-- RND Vx, kk (R170): V[x] <- r & kk, r the byte drawn. -/
def execRnd (x : Nibble) (kk : Byte) (s : State) : Result :=
  .next ((s.advance.setV x (s.env.nextRnd &&& kk)).setEnv s.env.afterRnd)

/-- SKP Vx (R171): skip if key V[x] & 0x0F is down. -/
def execSkp (x : Nibble) (s : State) : Result :=
  .next (s.advance.skipIf (s.env.keyDown (lowNibble (s.getV x))))

/-- SKNP Vx (R172): skip if key V[x] & 0x0F is up. -/
def execSknp (x : Nibble) (s : State) : Result :=
  .next (s.advance.skipIf (!s.env.keyDown (lowNibble (s.getV x))))

/-- LD Vx, DT (R173). -/
def execLdVxDt (x : Nibble) (s : State) : Result := .next (s.advance.setV x s.dt)

/-- LD Vx, K (R174): RUN <- AwaitingKey(x); no PC advance (40_execution_cycle.md R92; log 16). `keyPress` completes it. -/
def execLdVxK (x : Nibble) (s : State) : Result := .next (s.setRun (.awaitingKey x))

/-- LD DT, Vx (R176). -/
def execLdDtVx (x : Nibble) (s : State) : Result := .next (s.advance.setDt (s.getV x))

/-- LD ST, Vx (R177). -/
def execLdStVx (x : Nibble) (s : State) : Result := .next (s.advance.setSt (s.getV x))

end Sys2Proof.Machine
end

