-- ==== Sys2Proof/Machine/IndexInstrs.lean ====
section
/-!
DEFINITION. The index register and memory transfer (spec/44_index_memory.md). Nothing here faults: every address is
reduced mod 4096 byte by byte (20_memory.md R53). None of the three transfers changes I (R154 to R156; log 18).
-/

namespace Sys2Proof.Machine

/-- LD I, nnn (R150): I <- zext_16(nnn). -/
def execLdI (nnn : Addr12) (s : State) : Result := .next (s.advance.setI (addrOf nnn))

/-- ADD I, Vx (R151): I <- (I + V[x]) mod 65536; no flag. -/
def execAddI (x : Nibble) (s : State) : Result := .next (s.advance.setI (s.i + wordOf (s.getV x)))

/-- LD F, Vx (R152): I <- the font glyph of the low nibble of V[x]. -/
def execLdF (x : Nibble) (s : State) : Result :=
  .next (s.advance.setI (s.env.glyphAddr (lowNibble (s.getV x))))

/-- LD B, Vx (R154): the three decimal digits of V[x] at I, I + 1, I + 2. -/
def execLdB (x : Nibble) (s : State) : Result := .next (s.advance.writeBytes s.i (decimalDigits (s.getV x)))

/-- LD [I], Vx (R155): V[0] to V[x] at I onward. -/
def execStoreRegs (x : Nibble) (s : State) : Result := .next (s.advance.writeBytes s.i (s.regsUpTo x))

/-- LD Vx, [I] (R156): V[0] to V[x] from I onward. -/
def execLoadRegs (x : Nibble) (s : State) : Result :=
  .next (s.advance.setRegsFrom0 (s.readBytes s.i (x.toNat + 1)))

end Sys2Proof.Machine
end

