-- ==== Sys2Proof/Machine/ScreenInstrs.lean ====
section
/-!
DEFINITION. The display instructions (spec/41_display.md). A meaning takes the state with PC at the instruction and makes
the PC advance of 40_execution_cycle.md R91 itself.
-/

namespace Sys2Proof.Machine

/-- CLS (R100): every pixel <- 0. -/
def execCls (_x : Nibble) (s : State) : Result := .next (s.advance.setDisp Display.clear)

/-- What DRW draws, and whether a pixel went from 1 to 0: the n bytes at I as a sprite whose top-left pixel is column
V[x], row V[y] (R101). -/
def State.sprite (s : State) (x y n : Nibble) : Display × Bool :=
  Display.drawRows (s.getV x).toNat (s.getV y).toNat (s.readBytes s.i n.toNat) (s.disp, false)

/-- DRW (R101 to R105): XOR the sprite into DISP; V[0xF] <- collision, last. -/
def execDrw (x y n : Nibble) (s : State) : Result :=
  .next ((s.advance.setDisp (s.sprite x y n).1).setFlag (s.sprite x y n).2)

end Sys2Proof.Machine
end

