-- ==== Sys2Proof/WellFormed.lean ====
section
/-!
DEFINITION. The checks on what the block is given. An instruction needs none for its operands: "all 16 values are valid"
and every kk, nnn and n is (spec/30_encoding.md R72), and the types of `Instr` hold exactly those values. What can be
ill-formed is an instruction as an assembler writes it (R78), a program image (70_reset_and_hazards.md R231) and the font
parameters (00_scope.md R8, 44_index_memory.md R153).
-/

namespace Sys2Proof

/-- The form an assembler emits: the fields that no instruction of its kind uses are 0 (R78: "the assembler encodes
y = 0", "CLS and RET are encoded with x = 0"). For n of SE Vx,Vy and SNE Vx,Vy, R78 says nothing: any n is accepted. -/
def Instr.assembled : Instr → Bool
  | .cls x => x == 0
  | .ret x => x == 0
  | .shr _ y => y == 0
  | .shl _ y => y == 0
  | .jp _ | .call _ | .seImm _ _ | .sneImm _ _ | .seReg _ _ _ | .ldImm _ _ | .addImm _ _ | .ldReg _ _ | .orReg _ _
  | .andReg _ _ | .xorReg _ _ | .addReg _ _ | .subReg _ _ | .subnReg _ _ | .sneReg _ _ _ | .ldI _ | .jpV0 _ | .rnd _ _
  | .drw _ _ _ | .skp _ | .sknp _ | .ldVxDt _ | .ldVxK _ | .ldDtVx _ | .ldStVx _ | .addI _ | .ldF _ | .ldB _
  | .storeRegs _ | .loadRegs _ => true

/-- The load-time check of R231: the image fits in 0x200 to 0xFFF. -/
def imageFits (image : List Byte) : Bool :=
  decide (image.length ≤ Config.maxImage)

/-- What R8 and R153 ask of the font parameters: FONT_BASE + 80 is at most 0x200, there are 80 bytes, and each row's
four pixels are in bits 7 to 4 (bits 3 to 0 are 0). -/
def Font.wellFormed (f : Font) : Bool :=
  decide (f.base.toNat + Config.fontBytes ≤ Config.loadBase.toNat)
    && decide (f.data.length = Config.fontBytes)
    && f.data.all (fun b => b.extractLsb' 0 4 == 0)

end Sys2Proof
end

