-- ==== Sys2Proof/Machine/Events.lean ====
section
/-!
DEFINITION. The input events other than Step (spec/10_state.md R40), each atomic (R41), and the outputs computed from the
state. An event changes neither the inputs still pending, nor the parameters, nor the trace so far (log 27).
-/

namespace Sys2Proof.Machine

/-! ## Initialisation and load (70_reset_and_hazards.md) -/

/-- Init() of R230; RUN is left to the caller. -/
def State.init (s : State) : State :=
  { s with
    mem := Memory.initial s.env.font
    v := Vector.replicate 16 0x00
    i := 0x0000
    pc := 0x0200
    sp := 0
    stack := Vector.replicate 16 0x0000
    dt := 0x00
    st := 0x00
    disp := Display.clear
    faultCause := 0
    faultPc := 0x0000 }

/-- PowerOnReset (R230). -/
def powerOnReset (s : State) : State := s.init.setRun .idle

/-- Load(image) (R231): initialise; an image of more than 3584 bytes halts the block with FAULT_PC = 0x0200, which is PC
after Init; any other is copied to 0x200 and started. -/
def loadImage (image : List Byte) (s : State) : State :=
  if imageFits image then (s.init.writeBytes Config.loadBase image).setRun .running
  else s.init.raiseFault .programTooLarge

/-! ## Timers, keys, halt -/

/-- One decrement toward zero (60_exceptions.md R207). -/
def decTimer (t : Byte) : Byte := if t = 0 then 0 else t - 1

/-- Tick (R207): both timers in Running and AwaitingKey, nothing in Idle and Halted. -/
def tick (s : State) : State :=
  match s.run with
  | .running | .awaitingKey _ => (s.setDt (decTimer s.dt)).setSt (decTimer s.st)
  | .idle | .halted _ => s

/-- KeyPress(k) (45_timers_keys_random.md R175): completes a pending LD Vx,K; otherwise it is dropped. -/
def keyPress (k : Nibble) (s : State) : State :=
  match s.run with
  | .awaitingKey x => ((s.setV x (k.setWidth 8)).advance).setRun .running
  | .idle | .running | .halted _ => s

/-- Halt (60_exceptions.md R210): stops the block in Running and AwaitingKey; a pending LD Vx,K is cancelled. -/
def haltBlock (s : State) : State :=
  match s.run with
  | .running | .awaitingKey _ => s.raiseFault .externalHalt
  | .idle | .halted _ => s

/-- The levels on keys[15:0] change (10_state.md R30; log 3). -/
def setKeyLevels (levels : BitVec 16) (s : State) : State := s.setEnv { s.env with keys := levels }

/-! ## Outputs -/

/-- sound_on (60_exceptions.md R208; log 19). -/
def State.soundOn (s : State) : Bool :=
  match s.run with
  | .running | .awaitingKey _ => s.st != 0
  | .idle | .halted _ => false

/-- RUN in STATUS bits 1:0 (10_state.md R34). -/
def RunState.code : RunState → BitVec 2
  | .idle => 0
  | .running => 1
  | .awaitingKey _ => 2
  | .halted _ => 3

/-- WAITREG in STATUS bits 5:2: x of AwaitingKey(x), else 0 (R34). -/
def State.waitReg (s : State) : Nibble :=
  match s.run with
  | .awaitingKey x => x
  | .idle | .running | .halted _ => 0

/-- CAUSE in STATUS bits 8:6: FAULT_CAUSE, 0 unless RUN is Halted (R34; log 14). -/
def State.statusCause (s : State) : BitVec 3 :=
  match s.run with
  | .halted _ => s.faultCause
  | .idle | .running | .awaitingKey _ => 0

/-- STATUS (R34): bits 15:9 read as 0. -/
def State.status (s : State) : Word :=
  (s.run.code).setWidth 16 ||| (s.waitReg.setWidth 16 <<< 2) ||| (s.statusCause.setWidth 16 <<< 6)

/-- The display port (R43): the pixel at column x of row y. -/
def State.pixel (s : State) (y : Fin 32) (x : Fin 64) : Bool := s.disp.pixel y x

end Sys2Proof.Machine
end

