-- ==== Sys2Proof/Machine/Cycle.lean ====
section
/-!
DEFINITION. The fetch-decode-execute cycle (spec/40_execution_cycle.md R90) and the effect of each input.
-/

namespace Sys2Proof.Machine

/-- A Step event (R90): in Running, one instruction or one unknown word (R94); in any other run state nothing (R93). -/
def stepEvent (s : State) : Result :=
  match s.run with
  | .running =>
    match decodeWord s.fetchWord with
    | .ok i => exec i s
    | .error _ => .next (s.unknownWord s.fetchWord)
  | .idle | .awaitingKey _ | .halted _ => .next s

/-- The whole effect of one input (10_state.md R40, R41). -/
def takeInput (e : Input) (s : State) : Result :=
  match e with
  | .powerOnReset => .next (powerOnReset s)
  | .load image => .next (loadImage image s)
  | .step => stepEvent s
  | .tick => .next (tick s)
  | .keyPress k => .next (keyPress k s)
  | .halt => .next (haltBlock s)
  | .keyLevels levels => .next (setKeyLevels levels s)

end Sys2Proof.Machine
end

