-- ==== Sys2Proof/Machine/Step.lean ====
section
/-!
DEFINITION. One step of the machine: the next input, taken whole (spec/10_state.md R41; log 1).
-/

namespace Sys2Proof.Machine

/-- Takes the oldest pending input, or a Step when none is pending, and applies it. -/
def step (s : State) : Host.Outcome State Fault Refusal := takeInput s.nextInput s.dropInput

/-- `s` with the instruction of the word `w` where the next step fetches, and that step a Step event in Running (log 6). -/
def State.withFetchWord (s : State) (nbits w : Nat) : State := s.placeInstruction nbits w

end Sys2Proof.Machine
end

