-- ==== Sys2Proof/Machine/Assembler.lean ====
section
/-!
DEFINITION. The assembler syntax of spec/30_encoding.md R78: one line of text to an instruction. Text is a list of
characters. There are no pseudo-instructions (R79).
-/

namespace Sys2Proof

/-- One operand as written (R78). -/
inductive AsmOperand where
  /-- V0 to VF. -/
  | reg (x : Nibble)
  /-- A number with the 0x prefix: how many digits it has, and its value. -/
  | hex (digits value : Nat)
  /-- A number without a prefix, as n of DRW is written in the spec's programs: decimal (log 33). -/
  | dec (value : Nat)
  /-- The keyword I. -/
  | index
  /-- The keyword DT. -/
  | delay
  /-- The keyword ST. -/
  | sound
  /-- The keyword K. -/
  | key
  /-- The keyword F. -/
  | font
  /-- The keyword B. -/
  | bcd
  /-- The keyword [I]. -/
  | indirect
  deriving DecidableEq, Repr

/-- The value of a digit: 0 to 9 and A to F (R78: "hexadecimal digit, upper case"). -/
def digitValue (c : Char) : Option Nat :=
  if '0' ≤ c ∧ c ≤ '9' then some (c.toNat - '0'.toNat)
  else if 'A' ≤ c ∧ c ≤ 'F' then some (c.toNat - 'A'.toNat + 10)
  else none

/-- The value of a row of digits of a base, `acc` the value of the digits before; nothing when one is no digit of it. -/
def digitsValue (base acc : Nat) : List Char → Option Nat
  | [] => some acc
  | c :: cs =>
    match digitValue c with
    | some d => if d < base then digitsValue base (base * acc + d) cs else none
    | none => none

/-- Reads one operand (R78). -/
def readOperand : List Char → Option AsmOperand
  | [] => none
  | ['I'] => some .index
  | ['K'] => some .key
  | ['F'] => some .font
  | ['B'] => some .bcd
  | ['D', 'T'] => some .delay
  | ['S', 'T'] => some .sound
  | ['[', 'I', ']'] => some .indirect
  | ['V', c] => (digitValue c).map (fun d => .reg (BitVec.ofNat 4 d))
  | '0' :: 'x' :: c :: cs => (digitsValue 16 0 (c :: cs)).map (fun v => .hex (cs.length + 1) v)
  | c :: cs => (digitsValue 10 0 (c :: cs)).map (fun v => .dec v)

/-- Cuts at every comma; `acc` is the piece so far, backwards. -/
def cutAtCommas (acc : List Char) : List Char → List (List Char)
  | [] => [acc.reverse]
  | c :: cs => if c = ',' then acc.reverse :: cutAtCommas [] cs else cutAtCommas (c :: acc) cs

/-- One space after a comma may stand or not (R78: "an assembler accepts either"). -/
def dropSpace : List Char → List Char
  | ' ' :: cs => cs
  | cs => cs

/-- The operands after a mnemonic; none when nothing follows. -/
def readOperands : List Char → Option (List AsmOperand)
  | [] => some []
  | c :: cs => (cutAtCommas [] (c :: cs)).mapM (fun piece => readOperand (dropSpace piece))

/-- kk: a number of one or two hexadecimal digits (R78: "up to the field width"). -/
def AsmOperand.asByte : AsmOperand → Option Byte
  | .hex digits v => if digits ≤ 2 then some (BitVec.ofNat 8 v) else none
  | _ => none

/-- nnn: a number of one to three hexadecimal digits. -/
def AsmOperand.asAddr : AsmOperand → Option Addr12
  | .hex digits v => if digits ≤ 3 then some (BitVec.ofNat 12 v) else none
  | _ => none

/-- n: one hexadecimal digit, or a decimal number up to 15 (log 33). -/
def AsmOperand.asNibble : AsmOperand → Option Nibble
  | .hex digits v => if digits ≤ 1 then some (BitVec.ofNat 4 v) else none
  | .dec v => if v < 16 then some (BitVec.ofNat 4 v) else none
  | _ => none

/-- The forms of LD (the column "assembler form" of R74). -/
def assembleLd : List AsmOperand → Option Instr
  | [.reg x, .reg y] => some (.ldReg x y)
  | [.reg x, .delay] => some (.ldVxDt x)
  | [.reg x, .key] => some (.ldVxK x)
  | [.reg x, .indirect] => some (.loadRegs x)
  | [.reg x, o] => o.asByte.map (.ldImm x)
  | [.index, o] => o.asAddr.map .ldI
  | [.delay, .reg x] => some (.ldDtVx x)
  | [.sound, .reg x] => some (.ldStVx x)
  | [.font, .reg x] => some (.ldF x)
  | [.bcd, .reg x] => some (.ldB x)
  | [.indirect, .reg x] => some (.storeRegs x)
  | _ => none

/-- An instruction without operands. -/
def assembleNone (i : Instr) : List AsmOperand → Option Instr
  | [] => some i
  | _ => none

/-- An instruction with one register. -/
def assembleReg (f : Nibble → Instr) : List AsmOperand → Option Instr
  | [.reg x] => some (f x)
  | _ => none

/-- An instruction with two registers. -/
def assembleRegReg (f : Nibble → Nibble → Instr) : List AsmOperand → Option Instr
  | [.reg x, .reg y] => some (f x y)
  | _ => none

/-- An instruction with a register and a byte. -/
def assembleRegByte (f : Nibble → Byte → Instr) : List AsmOperand → Option Instr
  | [.reg x, o] => o.asByte.map (f x)
  | _ => none

/-- CALL. -/
def assembleCall : List AsmOperand → Option Instr
  | [o] => o.asAddr.map .call
  | _ => none

/-- JP nnn and JP V0, nnn. -/
def assembleJp : List AsmOperand → Option Instr
  | [o] => o.asAddr.map .jp
  | [.reg x, o] => if x = 0 then o.asAddr.map .jpV0 else none
  | _ => none

/-- SE and SNE. n of the register forms is written nowhere, and R78 says nothing of it: 0 (log 33). -/
def assembleSkip (imm : Nibble → Byte → Instr) (reg : Nibble → Nibble → Nibble → Instr) :
    List AsmOperand → Option Instr
  | [.reg x, .reg y] => some (reg x y 0)
  | os => assembleRegByte imm os

/-- ADD. -/
def assembleAdd : List AsmOperand → Option Instr
  | [.reg x, .reg y] => some (.addReg x y)
  | [.index, .reg x] => some (.addI x)
  | os => assembleRegByte .addImm os

/-- DRW. -/
def assembleDrw : List AsmOperand → Option Instr
  | [.reg x, .reg y, o] => o.asNibble.map (.drw x y)
  | _ => none

/-- The instruction of a mnemonic and its operands: "CLS and RET are encoded with x = 0", for SHR and SHL "the assembler
encodes y = 0" (R78). -/
def assembleOp : List Char → List AsmOperand → Option Instr
  | ['C', 'L', 'S'] => assembleNone (.cls 0)
  | ['R', 'E', 'T'] => assembleNone (.ret 0)
  | ['J', 'P'] => assembleJp
  | ['C', 'A', 'L', 'L'] => assembleCall
  | ['S', 'E'] => assembleSkip .seImm .seReg
  | ['S', 'N', 'E'] => assembleSkip .sneImm .sneReg
  | ['L', 'D'] => assembleLd
  | ['A', 'D', 'D'] => assembleAdd
  | ['O', 'R'] => assembleRegReg .orReg
  | ['A', 'N', 'D'] => assembleRegReg .andReg
  | ['X', 'O', 'R'] => assembleRegReg .xorReg
  | ['S', 'U', 'B'] => assembleRegReg .subReg
  | ['S', 'U', 'B', 'N'] => assembleRegReg .subnReg
  | ['S', 'H', 'R'] => assembleReg (fun x => .shr x 0)
  | ['S', 'H', 'L'] => assembleReg (fun x => .shl x 0)
  | ['R', 'N', 'D'] => assembleRegByte .rnd
  | ['D', 'R', 'W'] => assembleDrw
  | ['S', 'K', 'P'] => assembleReg .skp
  | ['S', 'K', 'N', 'P'] => assembleReg .sknp
  | _ => fun _ => none

/-- Splits a line at its first space: the mnemonic and the rest. -/
def splitMnemonic : List Char → List Char × List Char
  | [] => ([], [])
  | c :: cs => if c = ' ' then ([], cs) else (c :: (splitMnemonic cs).1, (splitMnemonic cs).2)

/-- Assembles one line (R78); nothing when it is no instruction. -/
def assemble (line : List Char) : Option Instr :=
  match readOperands (splitMnemonic line).2 with
  | some ops => assembleOp (splitMnemonic line).1 ops
  | none => none

/-- The instruction with every field that the text does not show set to 0, as an assembler emits it (R78). -/
def Instr.shown : Instr → Instr
  | .cls _ => .cls 0
  | .ret _ => .ret 0
  | .seReg x y _ => .seReg x y 0
  | .sneReg x y _ => .sneReg x y 0
  | .shr x _ => .shr x 0
  | .shl x _ => .shl x 0
  | .jp nnn => .jp nnn
  | .call nnn => .call nnn
  | .seImm x kk => .seImm x kk
  | .sneImm x kk => .sneImm x kk
  | .ldImm x kk => .ldImm x kk
  | .addImm x kk => .addImm x kk
  | .ldReg x y => .ldReg x y
  | .orReg x y => .orReg x y
  | .andReg x y => .andReg x y
  | .xorReg x y => .xorReg x y
  | .addReg x y => .addReg x y
  | .subReg x y => .subReg x y
  | .subnReg x y => .subnReg x y
  | .ldI nnn => .ldI nnn
  | .jpV0 nnn => .jpV0 nnn
  | .rnd x kk => .rnd x kk
  | .drw x y n => .drw x y n
  | .skp x => .skp x
  | .sknp x => .sknp x
  | .ldVxDt x => .ldVxDt x
  | .ldVxK x => .ldVxK x
  | .ldDtVx x => .ldDtVx x
  | .ldStVx x => .ldStVx x
  | .addI x => .addI x
  | .ldF x => .ldF x
  | .ldB x => .ldB x
  | .storeRegs x => .storeRegs x
  | .loadRegs x => .loadRegs x

end Sys2Proof
end

