-- ==== Sys2Proof/Safety.lean ====
section
/-!
DEFINITION. The terms the claims are stated in: what an instruction may write (a frame), and what holds of every state a
run can reach (the invariant).
-/

namespace Sys2Proof.Machine

/-- What a claim lets an instruction write, beside PC. Everything not named is unchanged. -/
structure Footprint where
  /-- The V registers it may write. -/
  regs : List Nibble := []
  /-- It may write I. -/
  index : Bool := false
  /-- The addresses it may store a byte to. -/
  stores : List Word := []
  /-- It may write SP and the entries of S. -/
  stack : Bool := false
  /-- It may write DT. -/
  dt : Bool := false
  /-- It may write ST. -/
  st : Bool := false
  /-- It may write pixels. -/
  screen : Bool := false
  /-- It may write RUN. -/
  run : Bool := false
  /-- It may write FAULT_CAUSE and FAULT_PC. -/
  fault : Bool := false
  /-- It may draw a random byte from the environment. -/
  draw : Bool := false

/-- From `s` to `t` nothing changed but PC and what the footprint names. Memory is compared byte by byte: every address
that reaches no stored cell reads as before. -/
structure Frame (f : Footprint) (s t : State) : Prop where
  regs : ∀ k, k ∉ f.regs → t.getV k = s.getV k
  index : f.index = false → t.i = s.i
  mem : ∀ a, (∀ b ∈ f.stores, cellOf a ≠ cellOf b) → t.readByte a = s.readByte a
  stack : f.stack = false → t.sp = s.sp ∧ t.stack = s.stack
  dt : f.dt = false → t.dt = s.dt
  st : f.st = false → t.st = s.st
  screen : f.screen = false → ∀ y x, t.pixel y x = s.pixel y x
  run : f.run = false → t.run = s.run
  fault : f.fault = false → t.faultCause = s.faultCause ∧ t.faultPc = s.faultPc
  env : f.draw = false → t.env = s.env
  inputs : t.env.pending = s.env.pending ∧ t.env.keys = s.env.keys ∧ t.env.font = s.env.font
  diags : t.diags = s.diags

/-- The fault record agrees with RUN (spec/10_state.md R32, 60_exceptions.md R201, R210, 70_reset_and_hazards.md R231):
in Halted(cause) it holds the cause's code and PC; in every other run state it is clear. -/
def FaultRecordOk (s : State) : Prop :=
  match s.run with
  | .halted c => s.faultCause = c.code ∧ s.faultPc = s.pc
  | .idle | .running | .awaitingKey _ => s.faultCause = 0 ∧ s.faultPc = 0

/-- A stack fault froze the stack as it was (R200, R201): full after StackOverflow, empty after StackUnderflow. -/
def FrozenStackOk (s : State) : Prop :=
  (s.run = .halted .stackOverflow → s.sp.val = 16) ∧ (s.run = .halted .stackUnderflow → s.sp.val = 0)

/-- What holds of every state a run can reach. -/
structure StateInv (s : State) : Prop where
  /-- Memory is in canonical form. -/
  memory : s.mem.wf = true
  /-- The fault record agrees with RUN. -/
  faultRecord : FaultRecordOk s
  /-- A stack fault left the stack full or empty. -/
  frozenStack : FrozenStackOk s
  /-- In Idle the block holds its power-on values: no event but PowerOnReset and Load has an effect there (R31). -/
  idle : s.run = .idle → powerOnReset s = s
  /-- A load that failed left the block initialised, the image not copied (R231). -/
  failedLoad : s.run = .halted .programTooLarge → s.init.raiseFault .programTooLarge = s

end Sys2Proof.Machine

namespace Sys2Proof

/-- The instructions that write PC otherwise than by the plain advance (40_execution_cycle.md R91): JP, CALL, RET,
JP V0,nnn, the skips, and LD Vx,K. -/
def Instr.redirects : Instr → Bool
  | .ret _ | .jp _ | .call _ | .seImm _ _ | .sneImm _ _ | .seReg _ _ _ | .sneReg _ _ _ | .jpV0 _ | .skp _ | .sknp _
  | .ldVxK _ => true
  | .cls _ | .ldImm _ _ | .addImm _ _ | .ldReg _ _ | .orReg _ _ | .andReg _ _ | .xorReg _ _ | .addReg _ _ | .subReg _ _
  | .shr _ _ | .subnReg _ _ | .shl _ _ | .ldI _ | .rnd _ _ | .drw _ _ _ | .ldVxDt _ | .ldDtVx _ | .ldStVx _ | .addI _
  | .ldF _ | .ldB _ | .storeRegs _ | .loadRegs _ => false

/-- The instructions that write VF as a flag (10_state.md R22): exactly these six. -/
def Instr.writesFlag : Instr → Bool
  | .addReg _ _ | .subReg _ _ | .shr _ _ | .subnReg _ _ | .shl _ _ | .drw _ _ _ => true
  | .cls _ | .ret _ | .jp _ | .call _ | .seImm _ _ | .sneImm _ _ | .seReg _ _ _ | .ldImm _ _ | .addImm _ _ | .ldReg _ _
  | .orReg _ _ | .andReg _ _ | .xorReg _ _ | .sneReg _ _ _ | .ldI _ | .jpV0 _ | .rnd _ _ | .skp _ | .sknp _ | .ldVxDt _
  | .ldVxK _ | .ldDtVx _ | .ldStVx _ | .addI _ | .ldF _ | .ldB _ | .storeRegs _ | .loadRegs _ => false

/-- The V registers an instruction names as its destination (the same rules as its meaning): x of the loads and of the
arithmetic, V0 to Vx of LD Vx,[I]. (LD Vx,K writes x only when a key press completes it.) -/
def Instr.namesDest (i : Instr) (k : Nibble) : Bool :=
  match i with
  | .ldImm x _ | .addImm x _ | .ldReg x _ | .orReg x _ | .andReg x _ | .xorReg x _ | .addReg x _ | .subReg x _
  | .shr x _ | .subnReg x _ | .shl x _ | .rnd x _ | .ldVxDt x => k == x
  | .loadRegs x => decide (k.toNat ≤ x.toNat)
  | .cls _ | .ret _ | .jp _ | .call _ | .seImm _ _ | .sneImm _ _ | .seReg _ _ _ | .sneReg _ _ _ | .ldI _ | .jpV0 _
  | .drw _ _ _ | .skp _ | .sknp _ | .ldVxK _ | .ldDtVx _ | .ldStVx _ | .addI _ | .ldF _ | .ldB _ | .storeRegs _ => false

end Sys2Proof
end

