-- ==== Sys2Proof/Certificates/Slice0/Obligations.lean ====
section
/-!
DEFINITION. The statements for the provers. `Frame f s t` (Sys2Proof/Safety.lean) says that nothing changed from `s` to
`t` but PC and what the footprint `f` names. "log n" is notes/assumptions/n.md: a clause that rests on one is the model's
choice or the spec's own, not the source's.
-/

open Sys2Proof Sys2Proof.Machine

/-! ## Encoding (spec/30_encoding.md) -/

/-- Words written out from R74 decode to what they stand for (the opcode values are the spec's choice, log 7). -/
def Obligations.WrittenOutWordsDecode : Prop :=
  decodeWord 0x00E0 = .ok (.cls 0) ∧ decodeWord 0x1234 = .ok (.jp 0x234) ∧ decodeWord 0x3104 = .ok (.seImm 1 0x04) ∧
  decodeWord 0x8124 = .ok (.addReg 1 2) ∧ decodeWord 0xA300 = .ok (.ldI 0x300) ∧ decodeWord 0xD123 = .ok (.drw 1 2 3) ∧
  decodeWord 0xE19E = .ok (.skp 1) ∧ decodeWord 0xF533 = .ok (.ldB 5) ∧ decodeWord 0x8008 = .error (.unknownFamily8 0x8008)

/-- Every instruction survives encoding to bytes and decoding, whatever follows it. -/
def Obligations.DecodingTheEncodingGivesTheInstruction : Prop :=
  ∀ (i : Instr) (rest : List Byte), decode (encodeBytes i ++ rest) = .ok (i, rest)

/-- Every word that decodes is the encoding of what it decodes to: no bit is dropped. -/
def Obligations.EncodingTheDecodingGivesTheWord : Prop :=
  ∀ (w : Word) (i : Instr), decodeWord w = .ok i → encode i = w

/-- The decoder agrees with the mask-and-match map of R74: a word that decodes matches exactly the row of its
instruction, and a word that does not decode matches none (log 7, 12). -/
def Obligations.DecoderAgreesWithTheOpcodeMap : Prop :=
  ∀ w : Word, ((opcodeMap.filter (fun r => r.matchesWord w)).map (fun r => r.number)) =
    (match decodeWord w with
      | .ok i => [i.rowNumber]
      | .error _ => [])

/-- The unknown words are exactly those R75 lists (log 7, 12). -/
def Obligations.UnknownWordsAreExactlyTheListedOnes : Prop :=
  ∀ w : Word, (∃ e, decodeWord w = .error e) ↔
    (opcodeOf w = 0x0#4 ∧ fieldKK w ≠ 0xE0#8 ∧ fieldKK w ≠ 0xEE#8) ∨
    (opcodeOf w = 0x8#4 ∧ fieldN w ∈ [0x8#4, 0x9#4, 0xA#4, 0xB#4, 0xC#4, 0xD#4, 0xF#4]) ∨
    (opcodeOf w = 0xE#4 ∧ fieldKK w ≠ 0x9E#8 ∧ fieldKK w ≠ 0xA1#8) ∨
    (opcodeOf w = 0xF#4 ∧ fieldKK w ∉ [0x07#8, 0x0A#8, 0x15#8, 0x18#8, 0x1E#8, 0x29#8, 0x33#8, 0x55#8, 0x65#8])

/-- The assembler reads back what the disassembler prints, for every instruction; a field that the text does not show is
0 (R78; digits, and n of the register skips: log 33). The instruction read back has the same effect, since the fields that
are not shown are not examined (R76; log 12). -/
def Obligations.AssemblerReadsWhatTheDisassemblerPrints : Prop :=
  ∀ i : Instr, assemble (disassemble i).toList = some i.shown ∧ i.shown.assembled = true ∧
    ∀ s : State, exec i.shown s = exec i s

/-- Fields that the decoder does not examine and the instruction does not use have no effect (R76; log 12). -/
def Obligations.UnexaminedFieldsHaveNoEffect : Prop :=
  ∀ (x y p q : Nibble) (s : State), exec (.cls p) s = exec (.cls q) s ∧ exec (.ret p) s = exec (.ret q) s ∧
    exec (.seReg x y p) s = exec (.seReg x y q) s ∧ exec (.sneReg x y p) s = exec (.sneReg x y q) s ∧
    exec (.shr x p) s = exec (.shr x q) s ∧ exec (.shl x p) s = exec (.shl x q) s

/-! ## The step (spec/40_execution_cycle.md) -/

/-- In Running, a Step event executes the instruction that the two bytes at PC decode to, the byte at PC the high one
(R90, R71; log 1, 8). -/
def Obligations.StepRunsTheDecodedInstruction : Prop :=
  ∀ (s : State) (i : Instr), s.nextInput = .step → s.run = .running →
    decodeWord (wordOfBytes (s.readByte s.pc) (s.readByte (s.pc + 1))) = .ok i → step s = exec i s.dropInput

/-- A Step event in any other run state has no effect (R93; log 16). -/
def Obligations.StepOutsideRunningDoesNothing : Prop :=
  ∀ s : State, s.nextInput = .step → s.run ≠ .running → step s = .next s.dropInput

/-- An unknown word advances PC, emits exactly one diagnostic with its address and itself, and changes nothing else (R94;
log 15). -/
def Obligations.UnknownWordAdvancesAndIsReportedOnce : Prop :=
  ∀ (s : State) (e : DecodeError), s.nextInput = .step → s.run = .running → decodeWord s.fetchWord = .error e →
    ∃ t, step s = .next t ∧ t.pc = s.pc + 2 ∧ t.diags = s.diags ++ [⟨s.pc, s.fetchWord⟩] ∧
      Frame {} s.dropInput { t with diags := s.diags }

/-- PC after every instruction (R91): the advance for the plain ones, a further 2 for a skip taken, the target for the
jumps; CALL pushes the advanced PC. That LD Vx,K does not advance is R92, the spec's own choice (log 16), and the key
number of SKP and SKNP is log 17. CALL and RET here are those that do not fault; StackFaultIsPrecise has the others. -/
def Obligations.PcAfterEveryInstruction : Prop :=
  ∀ (i : Instr) (s t : State), exec i s = .next t →
    (i.redirects = false → t.pc = s.pc + 2) ∧
    (match i with
      | .jp nnn => t.pc = nnn.setWidth 16
      | .jpV0 nnn => t.pc = nnn.setWidth 16 + (s.getV 0).setWidth 16
      | .call nnn => ∀ h : s.sp.val < 16, t.pc = nnn.setWidth 16 ∧ t.stack[s.sp.val] = s.pc + 2
      | .ret _ => ∀ _h : s.sp.val ≠ 0, t.pc = s.stack[s.sp.val - 1]
      | .seImm x kk => t.pc = if s.getV x = kk then s.pc + 2 + 2 else s.pc + 2
      | .sneImm x kk => t.pc = if s.getV x ≠ kk then s.pc + 2 + 2 else s.pc + 2
      | .seReg x y _ => t.pc = if s.getV x = s.getV y then s.pc + 2 + 2 else s.pc + 2
      | .sneReg x y _ => t.pc = if s.getV x ≠ s.getV y then s.pc + 2 + 2 else s.pc + 2
      | .skp x => t.pc = if s.env.keyDown ((s.getV x).setWidth 4) = true then s.pc + 2 + 2 else s.pc + 2
      | .sknp x => t.pc = if s.env.keyDown ((s.getV x).setWidth 4) = false then s.pc + 2 + 2 else s.pc + 2
      | .ldVxK _ => t.pc = s.pc
      | _ => i.redirects = false)

/-! ## Display (spec/41_display.md) -/

/-- CLS clears every pixel and changes nothing else but PC (R100). -/
def Obligations.ClsClearsEveryPixel : Prop :=
  ∀ (x : Nibble) (s : State), ∃ t, exec (.cls x) s = .next t ∧ (∀ p q, t.pixel p q = false) ∧ t.pc = s.pc + 2 ∧
    Frame { screen := true } s t

/-- DRW flips exactly the pixels that a set bit of the sprite reaches: bit 7 - c of the byte at I + r reaches column
V[x] + c mod 64 of row V[y] + r mod 32 (R101; bit 7 as the left column is log 9, the address wrap log 10). VF is 1 if a
pixel went from 1 to 0, else 0; nothing else changes. -/
def Obligations.DrwFlipsExactlyTheSpritePixels : Prop :=
  ∀ (x y n : Nibble) (s : State), ∃ t, exec (.drw x y n) s = .next t ∧
    (∀ (p : Fin 32) (q : Fin 64), t.pixel p q ≠ s.pixel p q ↔
      ∃ r < n.toNat, ∃ c < 8, (s.readByte (s.i + BitVec.ofNat 16 r)).getLsbD (7 - c) = true ∧
        p.val = ((s.getV y).toNat + r) % 32 ∧ q.val = ((s.getV x).toNat + c) % 64) ∧
    ((∃ p q, s.pixel p q = true ∧ t.pixel p q = false) → t.getV 0xF = 1) ∧
    ((∀ p q, s.pixel p q = true → t.pixel p q = true) → t.getV 0xF = 0) ∧
    t.pc = s.pc + 2 ∧ Frame { regs := [0xF], screen := true } s t

/-- Drawing the same sprite twice at the same place restores the display, and the second draw reports a collision exactly
when the first one set a pixel (R101, R104; where the first draw set none, the pseudocode gives 0, log 26). VF is not a
coordinate here, since the first draw overwrites it. -/
def Obligations.DrwTwiceRestoresTheDisplay : Prop :=
  ∀ (x y n : Nibble) (s : State), x ≠ 0xF → y ≠ 0xF → ∃ t u, exec (.drw x y n) s = .next t ∧
    exec (.drw x y n) t = .next u ∧ (∀ p q, u.pixel p q = s.pixel p q) ∧
    (u.getV 0xF = 1 ↔ ∃ p q, s.pixel p q = false ∧ t.pixel p q = true)

/-- DRW with n = 0 draws nothing and sets VF to 0 (R105). -/
def Obligations.DrwOfNoRowsOnlyClearsVF : Prop :=
  ∀ (x y : Nibble) (s : State), ∃ t, exec (.drw x y 0) s = .next t ∧ t.getV 0xF = 0 ∧ t.pc = s.pc + 2 ∧
    Frame { regs := [0xF] } s t

/-! ## Control transfer (spec/42_control_flow.md) -/

/-- JP nnn and JP V0,nnn (R111, R117): PC alone changes. -/
def Obligations.JumpsSetPcAlone : Prop :=
  ∀ (nnn : Addr12) (s : State),
    (∃ t, exec (.jp nnn) s = .next t ∧ t.pc.toNat = nnn.toNat ∧ Frame {} s t) ∧
    (∃ t, exec (.jpV0 nnn) s = .next t ∧ t.pc.toNat = (nnn.toNat + (s.getV 0).toNat) % 65536 ∧ Frame {} s t)

/-- CALL nnn (R112): with fewer than 16 entries it writes the advanced PC to S[SP], counts SP up and jumps; with 16 it
raises StackOverflow, writes nothing else, and PC stays (the spec's own choice, log 13). SP as a count is log 31. -/
def Obligations.CallPushesTheAdvancedPcOrOverflows : Prop :=
  ∀ (nnn : Addr12) (s : State),
    (∀ h : s.sp.val < 16, ∃ t, exec (.call nnn) s = .next t ∧ t.stack = s.stack.set s.sp.val (s.pc + 2) h ∧
      t.sp.val = s.sp.val + 1 ∧ t.pc.toNat = nnn.toNat ∧ Frame { stack := true } s t) ∧
    (s.sp.val = 16 → ∃ t, exec (.call nnn) s = .next t ∧ t.run = .halted .stackOverflow ∧ t.pc = s.pc ∧
      Frame { run := true, fault := true } s t)

/-- RET (R110): with an entry it jumps to S[SP - 1] and counts SP down, the entry keeping its value (log 31); with none it
raises StackUnderflow, writes nothing else, and PC stays (the spec's own choice, log 13). -/
def Obligations.RetPopsOrUnderflows : Prop :=
  ∀ (x : Nibble) (s : State),
    (∀ _h : s.sp.val ≠ 0, ∃ t, exec (.ret x) s = .next t ∧ t.pc = s.stack[s.sp.val - 1] ∧ t.sp.val = s.sp.val - 1 ∧
      t.stack = s.stack ∧ Frame { stack := true } s t) ∧
    (s.sp.val = 0 → ∃ t, exec (.ret x) s = .next t ∧ t.run = .halted .stackUnderflow ∧ t.pc = s.pc ∧
      Frame { run := true, fault := true } s t)

/-- A RET right after a CALL comes back to the instruction after the CALL, with the stack as deep as before (SP as a count:
log 31). -/
def Obligations.RetUndoesCall : Prop :=
  ∀ (nnn : Addr12) (x : Nibble) (s : State), s.sp.val < 16 → ∃ t u, exec (.call nnn) s = .next t ∧
    exec (.ret x) t = .next u ∧ u.pc = s.pc + 2 ∧ u.sp = s.sp ∧ Frame { stack := true } s u

/-- A stack fault records its cause code and the address of the failing instruction, and freezes everything else, PC and
the stack included (R200, R201; log 13, 14). -/
def Obligations.StackFaultIsPrecise : Prop :=
  ∀ (nnn : Addr12) (x : Nibble) (s : State),
    (s.sp.val = 16 → exec (.call nnn) s =
      .next { s with faultCause := 1, faultPc := s.pc, run := .halted .stackOverflow }) ∧
    (s.sp.val = 0 → exec (.ret x) s =
      .next { s with faultCause := 2, faultPc := s.pc, run := .halted .stackUnderflow })

/-- SE Vx,kk and SNE Vx,kk (R113, R114): a further 2 on equal, on different; PC alone changes. -/
def Obligations.ImmediateSkips : Prop :=
  ∀ (x : Nibble) (kk : Byte) (s : State),
    (∃ t, exec (.seImm x kk) s = .next t ∧ t.pc = (if s.getV x = kk then s.pc + 4 else s.pc + 2) ∧ Frame {} s t) ∧
    (∃ t, exec (.sneImm x kk) s = .next t ∧ t.pc = (if s.getV x = kk then s.pc + 2 else s.pc + 4) ∧ Frame {} s t)

/-- SE Vx,Vy and SNE Vx,Vy (R115, R116), whatever n (log 12). -/
def Obligations.RegisterSkips : Prop :=
  ∀ (x y n : Nibble) (s : State),
    (∃ t, exec (.seReg x y n) s = .next t ∧ t.pc = (if s.getV x = s.getV y then s.pc + 4 else s.pc + 2) ∧ Frame {} s t) ∧
    (∃ t, exec (.sneReg x y n) s = .next t ∧ t.pc = (if s.getV x = s.getV y then s.pc + 2 else s.pc + 4) ∧ Frame {} s t)

/-! ## Arithmetic, logic, shifts (spec/43_alu.md) -/

/-- LD Vx,kk (R130) and ADD Vx,kk (R131): V[x] alone changes, and ADD wraps without a flag. -/
def Obligations.ImmediateLoadAndAdd : Prop :=
  ∀ (x : Nibble) (kk : Byte) (s : State),
    (∃ t, exec (.ldImm x kk) s = .next t ∧ t.getV x = kk ∧ t.pc = s.pc + 2 ∧ Frame { regs := [x] } s t) ∧
    (∃ t, exec (.addImm x kk) s = .next t ∧ (t.getV x).toNat = ((s.getV x).toNat + kk.toNat) % 256 ∧
      t.pc = s.pc + 2 ∧ Frame { regs := [x] } s t)

/-- LD, OR, AND and XOR Vx,Vy (R132 to R135): bit by bit, V[x] alone changes, no flag. -/
def Obligations.CopyAndLogicWriteOnlyVx : Prop :=
  ∀ (x y : Nibble) (s : State),
    (∃ t, exec (.ldReg x y) s = .next t ∧ t.getV x = s.getV y ∧ t.pc = s.pc + 2 ∧ Frame { regs := [x] } s t) ∧
    (∃ t, exec (.orReg x y) s = .next t ∧
      (∀ k, (t.getV x).getLsbD k = ((s.getV x).getLsbD k || (s.getV y).getLsbD k)) ∧
      t.pc = s.pc + 2 ∧ Frame { regs := [x] } s t) ∧
    (∃ t, exec (.andReg x y) s = .next t ∧
      (∀ k, (t.getV x).getLsbD k = ((s.getV x).getLsbD k && (s.getV y).getLsbD k)) ∧
      t.pc = s.pc + 2 ∧ Frame { regs := [x] } s t) ∧
    (∃ t, exec (.xorReg x y) s = .next t ∧
      (∀ k, (t.getV x).getLsbD k = ((s.getV x).getLsbD k ^^ (s.getV y).getLsbD k)) ∧
      t.pc = s.pc + 2 ∧ Frame { regs := [x] } s t)

/-- ADD Vx,Vy (R136): the sum mod 256, and VF = 1 iff the exact sum exceeds 255; with x = 0xF the flag survives. -/
def Obligations.AddWritesSumThenCarry : Prop :=
  ∀ (x y : Nibble) (s : State), ∃ t, exec (.addReg x y) s = .next t ∧
    (x ≠ 0xF → (t.getV x).toNat = ((s.getV x).toNat + (s.getV y).toNat) % 256) ∧
    t.getV 0xF = (if 255 < (s.getV x).toNat + (s.getV y).toNat then 1 else 0) ∧
    t.pc = s.pc + 2 ∧ Frame { regs := [x, 0xF] } s t

/-- SUB and SUBN (R137, R139): the difference mod 256, and VF = 1 iff strictly greater; with x = 0xF the flag survives. -/
def Obligations.SubtractionsWriteDifferenceThenStrictFlag : Prop :=
  ∀ (x y : Nibble) (s : State),
    (∃ t, exec (.subReg x y) s = .next t ∧
      (x ≠ 0xF → (t.getV x).toNat = (256 + (s.getV x).toNat - (s.getV y).toNat) % 256) ∧
      t.getV 0xF = (if (s.getV y).toNat < (s.getV x).toNat then 1 else 0) ∧
      t.pc = s.pc + 2 ∧ Frame { regs := [x, 0xF] } s t) ∧
    (∃ t, exec (.subnReg x y) s = .next t ∧
      (x ≠ 0xF → (t.getV x).toNat = (256 + (s.getV y).toNat - (s.getV x).toNat) % 256) ∧
      t.getV 0xF = (if (s.getV x).toNat < (s.getV y).toNat then 1 else 0) ∧
      t.pc = s.pc + 2 ∧ Frame { regs := [x, 0xF] } s t)

/-- SHR and SHL (R138, R140): V[x] shifted by one, VF the bit shifted out, V[y] neither read nor written unless it is one
of the two; with x = 0xF the flag survives. -/
def Obligations.ShiftsWriteResultThenLostBit : Prop :=
  ∀ (x y : Nibble) (s : State),
    (∃ t, exec (.shr x y) s = .next t ∧ (x ≠ 0xF → (t.getV x).toNat = (s.getV x).toNat / 2) ∧
      (t.getV 0xF).toNat = (s.getV x).toNat % 2 ∧ t.pc = s.pc + 2 ∧ Frame { regs := [x, 0xF] } s t) ∧
    (∃ t, exec (.shl x y) s = .next t ∧ (x ≠ 0xF → (t.getV x).toNat = (2 * (s.getV x).toNat) % 256) ∧
      (t.getV 0xF).toNat = (s.getV x).toNat / 128 ∧ t.pc = s.pc + 2 ∧ Frame { regs := [x, 0xF] } s t)

/-- The flag writers (spec/10_state.md R22): the six instructions and the value each leaves in VF, and no other
instruction changes VF except by naming it as a destination register. -/
def Obligations.OnlySixInstructionsWriteVFAsAFlag : Prop :=
  ∀ (i : Instr) (s t : State), exec i s = .next t →
    (i.writesFlag = false → i.namesDest 0xF = false → t.getV 0xF = s.getV 0xF) ∧
    (match i with
      | .addReg x y => t.getV 0xF = if 255 < (s.getV x).toNat + (s.getV y).toNat then 1 else 0
      | .subReg x y => t.getV 0xF = if s.getV y < s.getV x then 1 else 0
      | .shr x _ => t.getV 0xF = if (s.getV x).getLsbD 0 = true then 1 else 0
      | .subnReg x y => t.getV 0xF = if s.getV x < s.getV y then 1 else 0
      | .shl x _ => t.getV 0xF = if (s.getV x).getLsbD 7 = true then 1 else 0
      | .drw _ _ _ => ((∃ p q, s.pixel p q = true ∧ t.pixel p q = false) → t.getV 0xF = 1) ∧
          ((∀ p q, s.pixel p q = true → t.pixel p q = true) → t.getV 0xF = 0)
      | _ => i.writesFlag = false)

/-! ## Index register and memory transfer (spec/44_index_memory.md) -/

/-- LD I,nnn (R150) and ADD I,Vx (R151): I alone changes, at 16 bits, no flag. -/
def Obligations.IndexLoadAndAdd : Prop :=
  ∀ (nnn : Addr12) (x : Nibble) (s : State),
    (∃ t, exec (.ldI nnn) s = .next t ∧ t.i.toNat = nnn.toNat ∧ t.pc = s.pc + 2 ∧ Frame { index := true } s t) ∧
    (∃ t, exec (.addI x) s = .next t ∧ t.i.toNat = (s.i.toNat + (s.getV x).toNat) % 65536 ∧ t.pc = s.pc + 2 ∧
      Frame { index := true } s t)

/-- LD F,Vx (R152): I points at the glyph of V[x]'s low nibble, for every FONT_BASE (log 5, 17). -/
def Obligations.LdFPointsAtTheGlyph : Prop :=
  ∀ (x : Nibble) (s : State), ∃ t, exec (.ldF x) s = .next t ∧
    t.i.toNat = (s.env.font.base.toNat + 5 * ((s.getV x).toNat % 16)) % 65536 ∧ t.pc = s.pc + 2 ∧
    Frame { index := true } s t

/-- LD B,Vx (R154): hundreds, tens and ones at I, I + 1, I + 2, each address reduced mod 4096 (log 10); no other byte, no
register and not I changes. -/
def Obligations.LdBStoresThreeDecimalDigits : Prop :=
  ∀ (x : Nibble) (s : State), ∃ t, exec (.ldB x) s = .next t ∧
    (t.readByte s.i).toNat = (s.getV x).toNat / 100 ∧
    (t.readByte (s.i + 1)).toNat = (s.getV x).toNat / 10 % 10 ∧
    (t.readByte (s.i + 2)).toNat = (s.getV x).toNat % 10 ∧
    t.pc = s.pc + 2 ∧ Frame { stores := [s.i, s.i + 1, s.i + 2] } s t

/-- LD [I],Vx (R155): V[0] to V[x] at I onward, each address reduced mod 4096 (log 10); no other byte changes, and I does
not (log 18). -/
def Obligations.StoreRegsCopiesV0ToVxToMemory : Prop :=
  ∀ (x : Nibble) (s : State), ∃ t, exec (.storeRegs x) s = .next t ∧
    (∀ k : Nibble, k.toNat ≤ x.toNat → t.readByte (s.i + k.setWidth 16) = s.getV k) ∧ t.pc = s.pc + 2 ∧
    Frame { stores := (List.range (x.toNat + 1)).map (fun k => s.i + BitVec.ofNat 16 k) } s t

/-- LD Vx,[I] (R156): V[0] to V[x] from I onward (log 10); the registers after V[x], memory and I (log 18) do not change. -/
def Obligations.LoadRegsCopiesMemoryToV0ToVx : Prop :=
  ∀ (x : Nibble) (s : State), ∃ t, exec (.loadRegs x) s = .next t ∧
    (∀ k : Nibble, k.toNat ≤ x.toNat → t.getV k = s.readByte (s.i + k.setWidth 16)) ∧ t.pc = s.pc + 2 ∧
    (∀ k : Nibble, x.toNat < k.toNat → t.getV k = s.getV k) ∧
    Frame { regs := (List.range (x.toNat + 1)).map (fun k => BitVec.ofNat 4 k) } s t

/-- A byte stored is seen by the very next fetch (spec/20_memory.md R60): LD [I],V1 with I at the next instruction puts
the word of V0 and V1 there. -/
def Obligations.StoredWordIsFetchedNext : Prop :=
  ∀ s : State, s.i = s.pc + 2 → ∃ t, exec (.storeRegs 1) s = .next t ∧
    t.fetchWord = wordOfBytes (s.getV 0) (s.getV 1)

/-! ## Random, keys, timers (spec/45_timers_keys_random.md) -/

/-- RND (R170): V[x] is the byte drawn, whatever it is, masked by kk; only the draw is used up (log 4). -/
def Obligations.RndMasksTheDrawnByte : Prop :=
  ∀ (x : Nibble) (kk : Byte) (s : State), ∃ t, exec (.rnd x kk) s = .next t ∧
    (∀ k, (t.getV x).getLsbD k = (s.env.nextRnd.getLsbD k && kk.getLsbD k)) ∧
    t.env = s.env.afterRnd ∧ t.pc = s.pc + 2 ∧ Frame { regs := [x], draw := true } s t

/-- SKP and SKNP (R171, R172): the level of the key named by V[x]'s low nibble decides (log 3, 17). -/
def Obligations.KeySkipsReadTheLevel : Prop :=
  ∀ (x : Nibble) (s : State),
    (∃ t, exec (.skp x) s = .next t ∧
      t.pc = (if s.env.keys.getLsbD ((s.getV x).toNat % 16) = true then s.pc + 4 else s.pc + 2) ∧ Frame {} s t) ∧
    (∃ t, exec (.sknp x) s = .next t ∧
      t.pc = (if s.env.keys.getLsbD ((s.getV x).toNat % 16) = true then s.pc + 2 else s.pc + 4) ∧ Frame {} s t)

/-- LD Vx,DT (R173), LD DT,Vx (R176) and LD ST,Vx (R177): the destination alone changes. -/
def Obligations.TimerMoves : Prop :=
  ∀ (x : Nibble) (s : State),
    (∃ t, exec (.ldVxDt x) s = .next t ∧ t.getV x = s.dt ∧ t.pc = s.pc + 2 ∧ Frame { regs := [x] } s t) ∧
    (∃ t, exec (.ldDtVx x) s = .next t ∧ t.dt = s.getV x ∧ t.pc = s.pc + 2 ∧ Frame { dt := true } s t) ∧
    (∃ t, exec (.ldStVx x) s = .next t ∧ t.st = s.getV x ∧ t.pc = s.pc + 2 ∧ Frame { st := true } s t)

/-- LD ST,Vx in Running (R177, 60_exceptions.md R208; log 19): the sound is on after it iff V[x] is not 0, and still on
after the next Tick iff V[x] exceeds 1. -/
def Obligations.LdStDecidesTheSound : Prop :=
  ∀ (x : Nibble) (s : State), s.run = .running → ∃ t, exec (.ldStVx x) s = .next t ∧
    (t.soundOn = true ↔ s.getV x ≠ 0) ∧ ((tick t).soundOn = true ↔ 1 < (s.getV x).toNat)

/-- LD Vx,K (R174): the block waits, PC stays, V[x] is not written (log 16). -/
def Obligations.KeyWaitStartsWithoutAdvance : Prop :=
  ∀ (x : Nibble) (s : State), ∃ t, exec (.ldVxK x) s = .next t ∧ t.run = .awaitingKey x ∧ t.pc = s.pc ∧
    Frame { run := true } s t

/-- A key press completes a pending LD Vx,K and is dropped in any other run state (R175; log 16). -/
def Obligations.KeyPressCompletesOnlyAPendingWait : Prop :=
  ∀ (k : Nibble) (s : State), s.nextInput = .keyPress k →
    (∀ x, s.run = .awaitingKey x → ∃ t, step s = .next t ∧ (t.getV x).toNat = k.toNat ∧ t.pc = s.pc + 2 ∧
      t.run = .running ∧ Frame { regs := [x], run := true } s.dropInput t) ∧
    ((∀ x, s.run ≠ .awaitingKey x) → step s = .next s.dropInput)

/-! ## Events, faults, outputs (spec/60_exceptions.md, spec/70_reset_and_hazards.md) -/

/-- Tick decrements both timers toward zero in Running and AwaitingKey and does nothing in Idle and Halted (R207; log
24). -/
def Obligations.TickDecrementsBothTimers : Prop :=
  ∀ s : State, s.nextInput = .tick → ∃ t, step s = .next t ∧ t.pc = s.pc ∧
    Frame { dt := true, st := true } s.dropInput t ∧
    ((s.run = .running ∨ ∃ x, s.run = .awaitingKey x) → t.dt.toNat = s.dt.toNat - 1 ∧ t.st.toNat = s.st.toNat - 1) ∧
    ((s.run = .idle ∨ ∃ c, s.run = .halted c) → t.dt = s.dt ∧ t.st = s.st)

/-- Halt stops the block in Running and AwaitingKey, with the PC recorded and a pending wait cancelled, and does nothing
in Idle and Halted (R210; log 22; the cause code 4 is log 14). -/
def Obligations.HaltEventStopsTheBlock : Prop :=
  ∀ s : State, s.nextInput = .halt →
    ((s.run = .running ∨ ∃ x, s.run = .awaitingKey x) → ∃ t, step s = .next t ∧ t.run = .halted .externalHalt ∧
      t.faultCause = 4 ∧ t.faultPc = s.pc ∧ t.pc = s.pc ∧ Frame { run := true, fault := true } s.dropInput t) ∧
    ((s.run = .idle ∨ ∃ c, s.run = .halted c) → step s = .next s.dropInput)

/-- Halted is final until PowerOnReset or Load: any other input leaves the block as it is, and the sound is off (R202,
R208; log 19, 24). -/
def Obligations.HaltedIsLeftOnlyByResetOrLoad : Prop :=
  ∀ (s : State) (c : Cause), s.run = .halted c → s.nextInput ≠ .powerOnReset → (∀ image, s.nextInput ≠ .load image) →
    ∃ t, step s = .next t ∧ t = { s with env := t.env } ∧ t.soundOn = false

/-- The ways out of Running (spec/40_execution_cycle.md R97): LD Vx,K, a stack fault, the Halt event, PowerOnReset and
Load; no other instruction or input leaves it. -/
def Obligations.WaysOutOfRunning : Prop :=
  ∀ s t : State, s.run = .running → step s = .next t → t.run ≠ .running →
    (∃ x, s.nextInput = .step ∧ decodeWord s.fetchWord = .ok (.ldVxK x) ∧ t.run = .awaitingKey x) ∨
    (∃ nnn, s.nextInput = .step ∧ decodeWord s.fetchWord = .ok (.call nnn) ∧ s.sp.val = 16 ∧
      t.run = .halted .stackOverflow) ∨
    (∃ x, s.nextInput = .step ∧ decodeWord s.fetchWord = .ok (.ret x) ∧ s.sp.val = 0 ∧
      t.run = .halted .stackUnderflow) ∨
    (s.nextInput = .halt ∧ t.run = .halted .externalHalt) ∨
    s.nextInput = .powerOnReset ∨ ∃ image, s.nextInput = .load image

/-- PowerOnReset, from any state (R230; I, DISP, the fault record and Idle are the spec's choice, log 20; what it keeps is
log 27). -/
def Obligations.PowerOnResetValues : Prop :=
  ∀ s : State, s.nextInput = .powerOnReset → ∃ t, step s = .next t ∧ t.run = .idle ∧ t.pc = 0x0200 ∧ t.i = 0 ∧
    t.sp = 0 ∧ t.dt = 0 ∧ t.st = 0 ∧ (∀ k, t.getV k = 0) ∧ (∀ (k : Nat) (_h : k < 16), t.stack[k] = 0) ∧
    (∀ p q, t.pixel p q = false) ∧ t.faultCause = 0 ∧ t.faultPc = 0 ∧ t.mem = Memory.initial s.env.font ∧
    t.env = s.dropInput.env ∧ t.diags = s.diags

/-- Memory after Init (R230, R51, R153): the font bytes at FONT_BASE and zero everywhere else, for every well-formed font. -/
def Obligations.InitMemoryIsFontAndZero : Prop :=
  ∀ f : Font, f.wellFormed = true → ∀ a : Nat, a < 4096 →
    (Memory.initial f).read a =
      (if f.base.toNat ≤ a ∧ a < f.base.toNat + 80 then f.data.getD (a - f.base.toNat) 0 else 0)

/-- Load of an image that fits (R231; log 21): the image from 0x200 on, initial memory elsewhere, every register at its
initial value (I, the display and the fault record: log 20), Running. -/
def Obligations.LoadStartsAnImageThatFits : Prop :=
  ∀ (image : List Byte) (s : State), s.nextInput = .load image → image.length ≤ 3584 → ∃ t, step s = .next t ∧
    t.run = .running ∧ t.pc = 0x0200 ∧ t.i = 0 ∧ t.sp = 0 ∧ t.dt = 0 ∧ t.st = 0 ∧ (∀ k, t.getV k = 0) ∧
    (∀ (k : Nat) (_h : k < 16), t.stack[k] = 0) ∧ (∀ p q, t.pixel p q = false) ∧ t.faultCause = 0 ∧ t.faultPc = 0 ∧
    (∀ (k : Nat) (_h : k < image.length), t.mem.read (0x200 + k) = image[k]) ∧
    (∀ a : Nat, a < 4096 → a < 0x200 ∨ 0x200 + image.length ≤ a → t.mem.read a = (Memory.initial s.env.font).read a)

/-- Load of an image longer than 3584 bytes (R231; log 21): every register and the display at its initial value (I and the
display: log 20), initial memory, the image not copied, Halted(ProgramTooLarge), cause code 3 (log 14), FAULT_PC =
0x0200. That the environment and the trace are kept is log 27. -/
def Obligations.LoadRefusesAnOverlargeImage : Prop :=
  ∀ (image : List Byte) (s : State), s.nextInput = .load image → 3584 < image.length → ∃ t, step s = .next t ∧
    t.run = .halted .programTooLarge ∧ t.faultCause = 3 ∧ t.faultPc = 0x0200 ∧ t.pc = 0x0200 ∧
    t.i = 0 ∧ t.sp = 0 ∧ t.dt = 0 ∧ t.st = 0 ∧ (∀ k, t.getV k = 0) ∧ (∀ (k : Nat) (_h : k < 16), t.stack[k] = 0) ∧
    (∀ p q, t.pixel p q = false) ∧ t.mem = Memory.initial s.env.font ∧ t.env = s.dropInput.env ∧ t.diags = s.diags

/-- Inputs that arrive together are taken in the order of spec/10_state.md R41: PowerOnReset, Load, Halt, Step, KeyPress
by ascending key, Tick; none is lost or added. R41's order is the spec's own choice; that key levels come first and that
inputs of equal rank keep the order they are given in is the model's (log 2). -/
def Obligations.SimultaneousInputsAreOrdered : Prop :=
  (∀ (s : State) (es : List Input), ∃ fs, (s.arrive es).env.pending = s.env.pending ++ fs ∧ fs.Perm es ∧
    fs.Pairwise (fun a b => a.rank ≤ b.rank) ∧ ∀ r : Nat, fs.filter (fun e => e.rank == r) = es.filter (fun e => e.rank == r)) ∧
  (∀ (levels levels' : BitVec 16) (image image' : List Byte) (j k : Nibble),
    (Input.keyLevels levels).rank = (Input.keyLevels levels').rank ∧
    (Input.keyLevels levels).rank < Input.powerOnReset.rank ∧
    Input.powerOnReset.rank < (Input.load image).rank ∧
    (Input.load image).rank = (Input.load image').rank ∧
    (Input.load image).rank < Input.halt.rank ∧
    Input.halt.rank < Input.step.rank ∧
    Input.step.rank < (Input.keyPress j).rank ∧
    (j.toNat < k.toNat → (Input.keyPress j).rank < (Input.keyPress k).rank) ∧
    (Input.keyPress k).rank < Input.tick.rank)

/-- STATUS (spec/10_state.md R34, the bits of R31 and R32 in it; log 14) and sound_on (R208; log 19). -/
def Obligations.OutputsShowTheRunState : Prop :=
  ∀ s : State,
    s.status.extractLsb' 0 2 =
      (match s.run with | .idle => 0 | .running => 1 | .awaitingKey _ => 2 | .halted _ => 3) ∧
    s.status.extractLsb' 2 4 = (match s.run with | .awaitingKey x => x | _ => 0) ∧
    s.status.extractLsb' 6 3 = (match s.run with | .halted _ => s.faultCause | _ => 0) ∧
    s.status.extractLsb' 9 7 = 0 ∧
    (s.soundOn = true ↔ s.st ≠ 0 ∧ (s.run = .running ∨ ∃ x, s.run = .awaitingKey x))

/-! ## Rules of the whole machine -/

/-- Who writes what: I only by LD I, ADD I, LD F (R23); memory only by LD B and LD [I] (R52); SP and S only by CALL and
RET (R26); DT only by LD DT and ST only by LD ST (R27, R28, R207); pixels only by CLS and DRW (R29). -/
def Obligations.EachPartHasOnlyItsWriters : Prop :=
  ∀ (i : Instr) (s t : State), exec i s = .next t →
    (t.i ≠ s.i → (∃ nnn, i = .ldI nnn) ∨ (∃ x, i = .addI x) ∨ ∃ x, i = .ldF x) ∧
    ((∃ a, t.readByte a ≠ s.readByte a) → (∃ x, i = .ldB x) ∨ ∃ x, i = .storeRegs x) ∧
    (t.sp ≠ s.sp ∨ t.stack ≠ s.stack → (∃ nnn, i = .call nnn) ∨ ∃ x, i = .ret x) ∧
    (t.dt ≠ s.dt → ∃ x, i = .ldDtVx x) ∧ (t.st ≠ s.st → ∃ x, i = .ldStVx x) ∧
    ((∃ p q, t.pixel p q ≠ s.pixel p q) → (∃ x, i = .cls x) ∨ ∃ x y n, i = .drw x y n)

/-- No instruction but SKP and SKNP depends on the key levels (R30): changing them before or after is the same. -/
def Obligations.OnlyKeySkipsReadTheKeys : Prop :=
  ∀ (i : Instr) (levels : BitVec 16) (s : State), (∀ x, i ≠ .skp x) → (∀ x, i ≠ .sknp x) →
    ∃ t, exec i s = .next t ∧ exec i (setKeyLevels levels s) = .next (setKeyLevels levels t)

/-- A step changes no parameter, and adds to the output trace at most one diagnostic, never taking one away. -/
def Obligations.StepKeepsParametersAndTrace : Prop :=
  ∀ s t : State, step s = .next t → t.env.font = s.env.font ∧
    ∃ ds : List Diag, t.diags = s.diags ++ ds ∧ ds.length ≤ 1

/-- Every step has a next state: nothing faults or is refused (log 25). -/
def Obligations.EveryStepAnswersANextState : Prop :=
  ∀ s : State, ∃ t, step s = .next t

/-- The invariant holds right after reset (the values of log 20, the default font of log 5). -/
def Obligations.InvariantHoldsAtReset : Prop := StateInv State.reset

/-- Every step, whatever the input, keeps the invariant: canonical memory, a fault record that agrees with RUN, a frozen
stack that is full or empty after a stack fault (log 13, 14), power-on values in Idle (log 20), an initialised block after a
failed load (log 21). -/
def Obligations.EveryStepKeepsTheInvariant : Prop :=
  ∀ s t : State, StateInv s → step s = .next t → StateInv t

/-- From every state that meets the invariant, a run of any length goes on and meets it again. That it goes on is the
model's reading (log 25); the invariant rests on log 13, 14, 20 and 21. -/
def Obligations.EveryRunGoesOnInsideTheInvariant : Prop :=
  ∀ (k : Nat) (s : State), StateInv s → ∃ t, Sys2Proof.core.run k s = .next t ∧ StateInv t
end

