-- ==== Sys2Proof/Laws/Assembler.lean ====
section
/-!
SUPPORT. Reading back what the assembler form prints (spec/30_encoding.md R78): digits, numbers, registers, commas.
-/

namespace Sys2Proof

/-- A printed digit has its value. -/
@[simp] theorem digitValue_hexChar : ∀ d : Nibble, digitValue (hexChar d) = some d.toNat := by decide

/-- A printed digit is no comma. -/
theorem hexChar_ne_comma : ∀ d : Nibble, hexChar d ≠ ',' := by decide

/-- Text without a comma is one piece. -/
theorem cutAtCommas_of_notMem {cs : List Char} (acc : List Char) (h : ',' ∉ cs) :
    cutAtCommas acc cs = [acc.reverse ++ cs] := by
  induction cs generalizing acc with
  | nil => simp [cutAtCommas]
  | cons c cs ih =>
    simp only [List.mem_cons, not_or] at h
    simp [cutAtCommas, Ne.symm h.1, ih _ h.2]

/-- A comma ends a piece. -/
theorem cutAtCommas_append_comma {cs : List Char} (acc ds : List Char) (h : ',' ∉ cs) :
    cutAtCommas acc (cs ++ ',' :: ds) = (acc.reverse ++ cs) :: cutAtCommas [] ds := by
  induction cs generalizing acc with
  | nil => simp [cutAtCommas]
  | cons c cs ih =>
    simp only [List.mem_cons, not_or] at h
    simp [cutAtCommas, Ne.symm h.1, ih _ h.2]

/-- A register reads back. -/
theorem readOperand_regName (x : Nibble) : readOperand (regName x).toList = some (.reg x) := by
  simp [regName, hexDigit, readOperand]

/-- A printed byte reads back as a number of two digits. -/
theorem readOperand_hexByte (kk : Byte) : readOperand (hexByte kk).toList = some (.hex 2 kk.toNat) := by
  have := kk.isLt
  simp [hexByte, hexDigit, readOperand, digitsValue, Nat.shiftRight_eq_div_pow]
  omega

/-- A printed address reads back as a number of three digits. -/
theorem readOperand_hexAddr (a : Addr12) : readOperand (hexAddr a).toList = some (.hex 3 a.toNat) := by
  have := a.isLt
  simp [hexAddr, hexDigit, readOperand, digitsValue, Nat.shiftRight_eq_div_pow]
  omega

/-- A printed row count reads back as a decimal number. -/
theorem readOperand_decimal : ∀ n : Nibble, readOperand (toString n.toNat).toList = some (.dec n.toNat) := by
  decide +kernel

/-- No printed operand holds a comma. -/
theorem comma_notMem_regName (x : Nibble) : ',' ∉ (regName x).toList := by
  simp [regName, hexDigit, Ne.symm (hexChar_ne_comma x)]

theorem comma_notMem_hexByte (kk : Byte) : ',' ∉ (hexByte kk).toList := by
  simp [hexByte, hexDigit, Ne.symm (hexChar_ne_comma _)]

theorem comma_notMem_hexAddr (a : Addr12) : ',' ∉ (hexAddr a).toList := by
  simp [hexAddr, hexDigit, Ne.symm (hexChar_ne_comma _)]

theorem comma_notMem_decimal : ∀ n : Nibble, ',' ∉ (toString n.toNat).toList := by decide +kernel

/-! ## Lines of no to three operands -/

/-- A mnemonic alone. -/
theorem splitMnemonic_alone {m : List Char} (h : ' ' ∉ m) : splitMnemonic m = (m, []) := by
  induction m with
  | nil => rfl
  | cons c cs ih =>
    simp only [List.mem_cons, not_or] at h
    simp [splitMnemonic, Ne.symm h.1, ih h.2]

/-- A mnemonic ends at the first space. -/
theorem splitMnemonic_append {m : List Char} (h : ' ' ∉ m) (cs : List Char) :
    splitMnemonic (m ++ ' ' :: cs) = (m, cs) := by
  induction m with
  | nil => simp [splitMnemonic]
  | cons c ds ih =>
    simp only [List.mem_cons, not_or] at h
    simp [splitMnemonic, Ne.symm h.1, ih h.2]

/-- An operand as printed reads back, with or without a space before it. -/
structure Reads (o : List Char) (r : AsmOperand) : Prop where
  comma : ',' ∉ o
  space : o.head? ≠ some ' '
  read : readOperand o = some r

theorem Reads.ne_nil {o : List Char} {r : AsmOperand} (h : Reads o r) : o ≠ [] := by
  rintro rfl
  exact absurd h.read (by simp [readOperand])

theorem dropSpace_space (cs : List Char) : dropSpace (' ' :: cs) = cs := rfl

theorem Reads.dropSpace {o : List Char} {r : AsmOperand} (h : Reads o r) : dropSpace o = o := by
  cases o with
  | nil => rfl
  | cons c cs =>
    unfold Sys2Proof.dropSpace
    split
    · rename_i heq
      exact absurd (by simp [(List.cons.inj heq).1]) h.space
    · rfl

theorem assemble_none {m : List Char} (hm : ' ' ∉ m) : assemble m = assembleOp m [] := by
  simp [assemble, splitMnemonic_alone hm, readOperands]

theorem assemble_one {m a : List Char} {r : AsmOperand} (hm : ' ' ∉ m) (ha : Reads a r) :
    assemble (m ++ ' ' :: a) = assembleOp m [r] := by
  obtain ⟨c, cs, rfl⟩ := List.exists_cons_of_ne_nil ha.ne_nil
  simp [assemble, splitMnemonic_append hm, readOperands, cutAtCommas_of_notMem [] ha.comma, ha.dropSpace, ha.read]

theorem assemble_two {m a b : List Char} {r s : AsmOperand} (hm : ' ' ∉ m) (ha : Reads a r) (hb : Reads b s) :
    assemble (m ++ ' ' :: (a ++ ',' :: ' ' :: b)) = assembleOp m [r, s] := by
  obtain ⟨c, cs, rfl⟩ := List.exists_cons_of_ne_nil ha.ne_nil
  have h := cutAtCommas_append_comma [] (' ' :: b) ha.comma
  have h2 : cutAtCommas [] (' ' :: b) = [' ' :: b] := by
    simpa using cutAtCommas_of_notMem [] (cs := ' ' :: b) (by simpa using hb.comma)
  rw [h2] at h
  simp only [List.cons_append] at h
  simp [assemble, splitMnemonic_append hm, readOperands, h, ha.dropSpace, ha.read, dropSpace_space, hb.read]

theorem assemble_three {m a b d : List Char} {r s t : AsmOperand} (hm : ' ' ∉ m) (ha : Reads a r) (hb : Reads b s)
    (hd : Reads d t) : assemble (m ++ ' ' :: (a ++ ',' :: ' ' :: (b ++ ',' :: ' ' :: d))) = assembleOp m [r, s, t] := by
  obtain ⟨c, cs, rfl⟩ := List.exists_cons_of_ne_nil ha.ne_nil
  have h := cutAtCommas_append_comma [] (' ' :: (b ++ ',' :: ' ' :: d)) ha.comma
  have h2 := cutAtCommas_append_comma [] (cs := ' ' :: b) (' ' :: d) (by simpa using hb.comma)
  have h3 : cutAtCommas [] (' ' :: d) = [' ' :: d] := by
    simpa using cutAtCommas_of_notMem [] (cs := ' ' :: d) (by simpa using hd.comma)
  simp only [List.cons_append] at h h2
  rw [h2, h3] at h
  simp [assemble, splitMnemonic_append hm, readOperands, h, ha.dropSpace, ha.read, dropSpace_space, hb.read, hd.read]

theorem reads_regName (x : Nibble) : Reads (regName x).toList (.reg x) :=
  ⟨comma_notMem_regName x, by simp [regName], readOperand_regName x⟩

theorem reads_hexByte (kk : Byte) : Reads (hexByte kk).toList (.hex 2 kk.toNat) :=
  ⟨comma_notMem_hexByte kk, by simp [hexByte], readOperand_hexByte kk⟩

theorem reads_hexAddr (a : Addr12) : Reads (hexAddr a).toList (.hex 3 a.toNat) :=
  ⟨comma_notMem_hexAddr a, by simp [hexAddr], readOperand_hexAddr a⟩

theorem reads_decimal (n : Nibble) : Reads (toString n.toNat).toList (.dec n.toNat) :=
  ⟨comma_notMem_decimal n, by revert n; decide +kernel, readOperand_decimal n⟩

/-- The keywords of R78. -/
theorem reads_index : Reads ['I'] .index := ⟨by decide, by decide, rfl⟩
theorem reads_delay : Reads ['D', 'T'] .delay := ⟨by decide, by decide, rfl⟩
theorem reads_sound : Reads ['S', 'T'] .sound := ⟨by decide, by decide, rfl⟩
theorem reads_key : Reads ['K'] .key := ⟨by decide, by decide, rfl⟩
theorem reads_font : Reads ['F'] .font := ⟨by decide, by decide, rfl⟩
theorem reads_bcd : Reads ['B'] .bcd := ⟨by decide, by decide, rfl⟩
theorem reads_indirect : Reads ['[', 'I', ']'] .indirect := ⟨by decide, by decide, rfl⟩

end Sys2Proof
end

