-- ==== Sys2Proof/Laws/Decode.lean ====
section
/-!
SUPPORT. The fields of the words the encoder packs (spec/30_encoding.md R70, R71), and what the three masks of R74 look at.
-/

namespace Sys2Proof

/-! ## Fields of {op, nnn} -/

@[simp] theorem opcodeOf_packNNN (op : Nibble) (nnn : Addr12) : opcodeOf (packNNN op nnn) = op := by
  apply BitVec.eq_of_getLsbD_eq
  intro k hk
  simp [opcodeOf, packNNN]
  grind

@[simp] theorem fieldNNN_packNNN (op : Nibble) (nnn : Addr12) : fieldNNN (packNNN op nnn) = nnn := by
  apply BitVec.eq_of_getLsbD_eq
  intro k hk
  simp [fieldNNN, packNNN]
  grind

/-! ## Fields of {op, x, kk} -/

@[simp] theorem opcodeOf_packXKK (op x : Nibble) (kk : Byte) : opcodeOf (packXKK op x kk) = op := by
  apply BitVec.eq_of_getLsbD_eq
  intro k hk
  simp [opcodeOf, packXKK]
  grind

@[simp] theorem fieldX_packXKK (op x : Nibble) (kk : Byte) : fieldX (packXKK op x kk) = x := by
  apply BitVec.eq_of_getLsbD_eq
  intro k hk
  simp [fieldX, packXKK]
  grind

@[simp] theorem fieldKK_packXKK (op x : Nibble) (kk : Byte) : fieldKK (packXKK op x kk) = kk := by
  apply BitVec.eq_of_getLsbD_eq
  intro k hk
  simp [fieldKK, packXKK]
  grind

/-! ## Fields of {op, x, y, n} -/

@[simp] theorem opcodeOf_packXYN (op x y n : Nibble) : opcodeOf (packXYN op x y n) = op := by
  apply BitVec.eq_of_getLsbD_eq
  intro k hk
  simp [opcodeOf, packXYN]
  grind

@[simp] theorem fieldX_packXYN (op x y n : Nibble) : fieldX (packXYN op x y n) = x := by
  apply BitVec.eq_of_getLsbD_eq
  intro k hk
  simp [fieldX, packXYN]
  grind

@[simp] theorem fieldY_packXYN (op x y n : Nibble) : fieldY (packXYN op x y n) = y := by
  apply BitVec.eq_of_getLsbD_eq
  intro k hk
  simp [fieldY, packXYN]
  grind

@[simp] theorem fieldN_packXYN (op x y n : Nibble) : fieldN (packXYN op x y n) = n := by
  apply BitVec.eq_of_getLsbD_eq
  intro k hk
  simp [fieldN, packXYN]
  grind

/-! ## A word from its fields -/

theorem packNNN_fields (w : Word) : packNNN (opcodeOf w) (fieldNNN w) = w := by
  apply BitVec.eq_of_getLsbD_eq
  intro k hk
  simp only [opcodeOf, fieldNNN, packNNN, BitVec.getLsbD_or, BitVec.getLsbD_shiftLeft, BitVec.getLsbD_setWidth,
    BitVec.getLsbD_extractLsb']
  grind

theorem packXKK_fields (w : Word) : packXKK (opcodeOf w) (fieldX w) (fieldKK w) = w := by
  apply BitVec.eq_of_getLsbD_eq
  intro k hk
  simp only [opcodeOf, fieldX, fieldKK, packXKK, BitVec.getLsbD_or, BitVec.getLsbD_shiftLeft, BitVec.getLsbD_setWidth,
    BitVec.getLsbD_extractLsb']
  grind

theorem packXYN_fields (w : Word) : packXYN (opcodeOf w) (fieldX w) (fieldY w) (fieldN w) = w := by
  apply BitVec.eq_of_getLsbD_eq
  intro k hk
  simp only [opcodeOf, fieldX, fieldY, fieldN, packXYN, BitVec.getLsbD_or, BitVec.getLsbD_shiftLeft, BitVec.getLsbD_setWidth,
    BitVec.getLsbD_extractLsb']
  grind

/-! ## What the masks of R74 look at -/

@[simp] theorem packNNN_and_F000 (op : Nibble) (nnn : Addr12) : packNNN op nnn &&& 0xF000#16 = packNNN op 0 := by
  apply BitVec.eq_of_getLsbD_eq
  intro k hk
  interval_cases k <;> simp [packNNN]

@[simp] theorem packXKK_and_F000 (op x : Nibble) (kk : Byte) : packXKK op x kk &&& 0xF000#16 = packNNN op 0 := by
  apply BitVec.eq_of_getLsbD_eq
  intro k hk
  interval_cases k <;> simp [packXKK, packNNN]

@[simp] theorem packXKK_and_F0FF (op x : Nibble) (kk : Byte) : packXKK op x kk &&& 0xF0FF#16 = packXKK op 0 kk := by
  apply BitVec.eq_of_getLsbD_eq
  intro k hk
  interval_cases k <;> simp [packXKK]

@[simp] theorem packXYN_and_F000 (op x y n : Nibble) : packXYN op x y n &&& 0xF000#16 = packNNN op 0 := by
  apply BitVec.eq_of_getLsbD_eq
  intro k hk
  interval_cases k <;> simp [packXYN, packNNN]

@[simp] theorem packXYN_and_F00F (op x y n : Nibble) : packXYN op x y n &&& 0xF00F#16 = packXYN op 0 0 n := by
  apply BitVec.eq_of_getLsbD_eq
  intro k hk
  interval_cases k <;> simp [packXYN]

/-- The mask 0xF000 looks at the opcode nibble. -/
theorem and_F000_eq_iff (w : Word) (op : Nibble) : w &&& 0xF000#16 = packNNN op 0 ↔ opcodeOf w = op := by
  rw [← packNNN_fields w, packNNN_and_F000, opcodeOf_packNNN]
  exact ⟨fun h => by simpa using congrArg opcodeOf h, fun h => by rw [h]⟩

/-- The mask 0xF0FF looks at the opcode nibble and kk. -/
theorem and_F0FF_eq_iff (w : Word) (op : Nibble) (kk : Byte) :
    w &&& 0xF0FF#16 = packXKK op 0 kk ↔ opcodeOf w = op ∧ fieldKK w = kk := by
  rw [← packXKK_fields w, packXKK_and_F0FF, opcodeOf_packXKK, fieldKK_packXKK]
  exact ⟨fun h => ⟨by simpa using congrArg opcodeOf h, by simpa using congrArg fieldKK h⟩, fun h => by rw [h.1, h.2]⟩

/-- The mask 0xF00F looks at the opcode nibble and n. -/
theorem and_F00F_eq_iff (w : Word) (op n : Nibble) :
    w &&& 0xF00F#16 = packXYN op 0 0 n ↔ opcodeOf w = op ∧ fieldN w = n := by
  rw [← packXYN_fields w, packXYN_and_F00F, opcodeOf_packXYN, fieldN_packXYN]
  exact ⟨fun h => ⟨by simpa using congrArg opcodeOf h, by simpa using congrArg fieldN h⟩, fun h => by rw [h.1, h.2]⟩

/-! ## Bytes -/

@[simp] theorem wordOfBytes_hi (hi lo : Byte) : (wordOfBytes hi lo).extractLsb' 8 8 = hi := by
  apply BitVec.eq_of_getLsbD_eq
  intro k hk
  simp [wordOfBytes]
  grind

@[simp] theorem wordOfBytes_lo (hi lo : Byte) : (wordOfBytes hi lo).extractLsb' 0 8 = lo := by
  apply BitVec.eq_of_getLsbD_eq
  intro k hk
  simp [wordOfBytes]
  grind

/-- A word's bytes make the word again. -/
@[simp] theorem wordOfBytes_bytes (w : Word) : wordOfBytes (w.extractLsb' 8 8) (w.extractLsb' 0 8) = w := by
  apply BitVec.eq_of_getLsbD_eq
  intro k hk
  simp only [wordOfBytes, BitVec.getLsbD_or, BitVec.getLsbD_shiftLeft, BitVec.getLsbD_setWidth,
    BitVec.getLsbD_extractLsb']
  grind

end Sys2Proof
end

