-- ==== Sys2Proof/Laws/State.lean ====
section
/-!
SUPPORT. What each update of the state leaves in each field (true by rfl), and how the accessors read through the updates,
so that no later proof unfolds a record update.
-/

namespace Sys2Proof.Machine

/-! ## setV -/

@[simp] theorem State.setV_mem (s : State) (x : Nibble) (b : Byte) : (s.setV x b).mem = s.mem := rfl
@[simp] theorem State.setV_v (s : State) (x : Nibble) (b : Byte) : (s.setV x b).v = s.v.set x.toNat b x.isLt := rfl
@[simp] theorem State.setV_i (s : State) (x : Nibble) (b : Byte) : (s.setV x b).i = s.i := rfl
@[simp] theorem State.setV_pc (s : State) (x : Nibble) (b : Byte) : (s.setV x b).pc = s.pc := rfl
@[simp] theorem State.setV_sp (s : State) (x : Nibble) (b : Byte) : (s.setV x b).sp = s.sp := rfl
@[simp] theorem State.setV_stack (s : State) (x : Nibble) (b : Byte) : (s.setV x b).stack = s.stack := rfl
@[simp] theorem State.setV_dt (s : State) (x : Nibble) (b : Byte) : (s.setV x b).dt = s.dt := rfl
@[simp] theorem State.setV_st (s : State) (x : Nibble) (b : Byte) : (s.setV x b).st = s.st := rfl
@[simp] theorem State.setV_disp (s : State) (x : Nibble) (b : Byte) : (s.setV x b).disp = s.disp := rfl
@[simp] theorem State.setV_run (s : State) (x : Nibble) (b : Byte) : (s.setV x b).run = s.run := rfl
@[simp] theorem State.setV_faultCause (s : State) (x : Nibble) (b : Byte) : (s.setV x b).faultCause = s.faultCause := rfl
@[simp] theorem State.setV_faultPc (s : State) (x : Nibble) (b : Byte) : (s.setV x b).faultPc = s.faultPc := rfl
@[simp] theorem State.setV_diags (s : State) (x : Nibble) (b : Byte) : (s.setV x b).diags = s.diags := rfl
@[simp] theorem State.setV_env (s : State) (x : Nibble) (b : Byte) : (s.setV x b).env = s.env := rfl
@[simp] theorem State.setV_readByte (s : State) (x : Nibble) (b : Byte) (p : Word) : (s.setV x b).readByte p = s.readByte p := rfl
@[simp] theorem State.setV_pixel (s : State) (x : Nibble) (b : Byte) (p : Fin 32) (q : Fin 64) : (s.setV x b).pixel p q = s.pixel p q := rfl

/-! ## setPc -/

@[simp] theorem State.setPc_mem (s : State) (a : Word) : (s.setPc a).mem = s.mem := rfl
@[simp] theorem State.setPc_v (s : State) (a : Word) : (s.setPc a).v = s.v := rfl
@[simp] theorem State.setPc_i (s : State) (a : Word) : (s.setPc a).i = s.i := rfl
@[simp] theorem State.setPc_pc (s : State) (a : Word) : (s.setPc a).pc = a := rfl
@[simp] theorem State.setPc_sp (s : State) (a : Word) : (s.setPc a).sp = s.sp := rfl
@[simp] theorem State.setPc_stack (s : State) (a : Word) : (s.setPc a).stack = s.stack := rfl
@[simp] theorem State.setPc_dt (s : State) (a : Word) : (s.setPc a).dt = s.dt := rfl
@[simp] theorem State.setPc_st (s : State) (a : Word) : (s.setPc a).st = s.st := rfl
@[simp] theorem State.setPc_disp (s : State) (a : Word) : (s.setPc a).disp = s.disp := rfl
@[simp] theorem State.setPc_run (s : State) (a : Word) : (s.setPc a).run = s.run := rfl
@[simp] theorem State.setPc_faultCause (s : State) (a : Word) : (s.setPc a).faultCause = s.faultCause := rfl
@[simp] theorem State.setPc_faultPc (s : State) (a : Word) : (s.setPc a).faultPc = s.faultPc := rfl
@[simp] theorem State.setPc_diags (s : State) (a : Word) : (s.setPc a).diags = s.diags := rfl
@[simp] theorem State.setPc_env (s : State) (a : Word) : (s.setPc a).env = s.env := rfl
@[simp] theorem State.setPc_getV (s : State) (a : Word) (k : Nibble) : (s.setPc a).getV k = s.getV k := rfl
@[simp] theorem State.setPc_readByte (s : State) (a : Word) (p : Word) : (s.setPc a).readByte p = s.readByte p := rfl
@[simp] theorem State.setPc_pixel (s : State) (a : Word) (p : Fin 32) (q : Fin 64) : (s.setPc a).pixel p q = s.pixel p q := rfl

/-! ## setI -/

@[simp] theorem State.setI_mem (s : State) (a : Word) : (s.setI a).mem = s.mem := rfl
@[simp] theorem State.setI_v (s : State) (a : Word) : (s.setI a).v = s.v := rfl
@[simp] theorem State.setI_i (s : State) (a : Word) : (s.setI a).i = a := rfl
@[simp] theorem State.setI_pc (s : State) (a : Word) : (s.setI a).pc = s.pc := rfl
@[simp] theorem State.setI_sp (s : State) (a : Word) : (s.setI a).sp = s.sp := rfl
@[simp] theorem State.setI_stack (s : State) (a : Word) : (s.setI a).stack = s.stack := rfl
@[simp] theorem State.setI_dt (s : State) (a : Word) : (s.setI a).dt = s.dt := rfl
@[simp] theorem State.setI_st (s : State) (a : Word) : (s.setI a).st = s.st := rfl
@[simp] theorem State.setI_disp (s : State) (a : Word) : (s.setI a).disp = s.disp := rfl
@[simp] theorem State.setI_run (s : State) (a : Word) : (s.setI a).run = s.run := rfl
@[simp] theorem State.setI_faultCause (s : State) (a : Word) : (s.setI a).faultCause = s.faultCause := rfl
@[simp] theorem State.setI_faultPc (s : State) (a : Word) : (s.setI a).faultPc = s.faultPc := rfl
@[simp] theorem State.setI_diags (s : State) (a : Word) : (s.setI a).diags = s.diags := rfl
@[simp] theorem State.setI_env (s : State) (a : Word) : (s.setI a).env = s.env := rfl
@[simp] theorem State.setI_getV (s : State) (a : Word) (k : Nibble) : (s.setI a).getV k = s.getV k := rfl
@[simp] theorem State.setI_readByte (s : State) (a : Word) (p : Word) : (s.setI a).readByte p = s.readByte p := rfl
@[simp] theorem State.setI_pixel (s : State) (a : Word) (p : Fin 32) (q : Fin 64) : (s.setI a).pixel p q = s.pixel p q := rfl

/-! ## setDt -/

@[simp] theorem State.setDt_mem (s : State) (b : Byte) : (s.setDt b).mem = s.mem := rfl
@[simp] theorem State.setDt_v (s : State) (b : Byte) : (s.setDt b).v = s.v := rfl
@[simp] theorem State.setDt_i (s : State) (b : Byte) : (s.setDt b).i = s.i := rfl
@[simp] theorem State.setDt_pc (s : State) (b : Byte) : (s.setDt b).pc = s.pc := rfl
@[simp] theorem State.setDt_sp (s : State) (b : Byte) : (s.setDt b).sp = s.sp := rfl
@[simp] theorem State.setDt_stack (s : State) (b : Byte) : (s.setDt b).stack = s.stack := rfl
@[simp] theorem State.setDt_dt (s : State) (b : Byte) : (s.setDt b).dt = b := rfl
@[simp] theorem State.setDt_st (s : State) (b : Byte) : (s.setDt b).st = s.st := rfl
@[simp] theorem State.setDt_disp (s : State) (b : Byte) : (s.setDt b).disp = s.disp := rfl
@[simp] theorem State.setDt_run (s : State) (b : Byte) : (s.setDt b).run = s.run := rfl
@[simp] theorem State.setDt_faultCause (s : State) (b : Byte) : (s.setDt b).faultCause = s.faultCause := rfl
@[simp] theorem State.setDt_faultPc (s : State) (b : Byte) : (s.setDt b).faultPc = s.faultPc := rfl
@[simp] theorem State.setDt_diags (s : State) (b : Byte) : (s.setDt b).diags = s.diags := rfl
@[simp] theorem State.setDt_env (s : State) (b : Byte) : (s.setDt b).env = s.env := rfl
@[simp] theorem State.setDt_getV (s : State) (b : Byte) (k : Nibble) : (s.setDt b).getV k = s.getV k := rfl
@[simp] theorem State.setDt_readByte (s : State) (b : Byte) (p : Word) : (s.setDt b).readByte p = s.readByte p := rfl
@[simp] theorem State.setDt_pixel (s : State) (b : Byte) (p : Fin 32) (q : Fin 64) : (s.setDt b).pixel p q = s.pixel p q := rfl

/-! ## setSt -/

@[simp] theorem State.setSt_mem (s : State) (b : Byte) : (s.setSt b).mem = s.mem := rfl
@[simp] theorem State.setSt_v (s : State) (b : Byte) : (s.setSt b).v = s.v := rfl
@[simp] theorem State.setSt_i (s : State) (b : Byte) : (s.setSt b).i = s.i := rfl
@[simp] theorem State.setSt_pc (s : State) (b : Byte) : (s.setSt b).pc = s.pc := rfl
@[simp] theorem State.setSt_sp (s : State) (b : Byte) : (s.setSt b).sp = s.sp := rfl
@[simp] theorem State.setSt_stack (s : State) (b : Byte) : (s.setSt b).stack = s.stack := rfl
@[simp] theorem State.setSt_dt (s : State) (b : Byte) : (s.setSt b).dt = s.dt := rfl
@[simp] theorem State.setSt_st (s : State) (b : Byte) : (s.setSt b).st = b := rfl
@[simp] theorem State.setSt_disp (s : State) (b : Byte) : (s.setSt b).disp = s.disp := rfl
@[simp] theorem State.setSt_run (s : State) (b : Byte) : (s.setSt b).run = s.run := rfl
@[simp] theorem State.setSt_faultCause (s : State) (b : Byte) : (s.setSt b).faultCause = s.faultCause := rfl
@[simp] theorem State.setSt_faultPc (s : State) (b : Byte) : (s.setSt b).faultPc = s.faultPc := rfl
@[simp] theorem State.setSt_diags (s : State) (b : Byte) : (s.setSt b).diags = s.diags := rfl
@[simp] theorem State.setSt_env (s : State) (b : Byte) : (s.setSt b).env = s.env := rfl
@[simp] theorem State.setSt_getV (s : State) (b : Byte) (k : Nibble) : (s.setSt b).getV k = s.getV k := rfl
@[simp] theorem State.setSt_readByte (s : State) (b : Byte) (p : Word) : (s.setSt b).readByte p = s.readByte p := rfl
@[simp] theorem State.setSt_pixel (s : State) (b : Byte) (p : Fin 32) (q : Fin 64) : (s.setSt b).pixel p q = s.pixel p q := rfl

/-! ## setDisp -/

@[simp] theorem State.setDisp_mem (s : State) (d : Display) : (s.setDisp d).mem = s.mem := rfl
@[simp] theorem State.setDisp_v (s : State) (d : Display) : (s.setDisp d).v = s.v := rfl
@[simp] theorem State.setDisp_i (s : State) (d : Display) : (s.setDisp d).i = s.i := rfl
@[simp] theorem State.setDisp_pc (s : State) (d : Display) : (s.setDisp d).pc = s.pc := rfl
@[simp] theorem State.setDisp_sp (s : State) (d : Display) : (s.setDisp d).sp = s.sp := rfl
@[simp] theorem State.setDisp_stack (s : State) (d : Display) : (s.setDisp d).stack = s.stack := rfl
@[simp] theorem State.setDisp_dt (s : State) (d : Display) : (s.setDisp d).dt = s.dt := rfl
@[simp] theorem State.setDisp_st (s : State) (d : Display) : (s.setDisp d).st = s.st := rfl
@[simp] theorem State.setDisp_disp (s : State) (d : Display) : (s.setDisp d).disp = d := rfl
@[simp] theorem State.setDisp_run (s : State) (d : Display) : (s.setDisp d).run = s.run := rfl
@[simp] theorem State.setDisp_faultCause (s : State) (d : Display) : (s.setDisp d).faultCause = s.faultCause := rfl
@[simp] theorem State.setDisp_faultPc (s : State) (d : Display) : (s.setDisp d).faultPc = s.faultPc := rfl
@[simp] theorem State.setDisp_diags (s : State) (d : Display) : (s.setDisp d).diags = s.diags := rfl
@[simp] theorem State.setDisp_env (s : State) (d : Display) : (s.setDisp d).env = s.env := rfl
@[simp] theorem State.setDisp_getV (s : State) (d : Display) (k : Nibble) : (s.setDisp d).getV k = s.getV k := rfl
@[simp] theorem State.setDisp_readByte (s : State) (d : Display) (p : Word) : (s.setDisp d).readByte p = s.readByte p := rfl

/-! ## setRun -/

@[simp] theorem State.setRun_mem (s : State) (r : RunState) : (s.setRun r).mem = s.mem := rfl
@[simp] theorem State.setRun_v (s : State) (r : RunState) : (s.setRun r).v = s.v := rfl
@[simp] theorem State.setRun_i (s : State) (r : RunState) : (s.setRun r).i = s.i := rfl
@[simp] theorem State.setRun_pc (s : State) (r : RunState) : (s.setRun r).pc = s.pc := rfl
@[simp] theorem State.setRun_sp (s : State) (r : RunState) : (s.setRun r).sp = s.sp := rfl
@[simp] theorem State.setRun_stack (s : State) (r : RunState) : (s.setRun r).stack = s.stack := rfl
@[simp] theorem State.setRun_dt (s : State) (r : RunState) : (s.setRun r).dt = s.dt := rfl
@[simp] theorem State.setRun_st (s : State) (r : RunState) : (s.setRun r).st = s.st := rfl
@[simp] theorem State.setRun_disp (s : State) (r : RunState) : (s.setRun r).disp = s.disp := rfl
@[simp] theorem State.setRun_run (s : State) (r : RunState) : (s.setRun r).run = r := rfl
@[simp] theorem State.setRun_faultCause (s : State) (r : RunState) : (s.setRun r).faultCause = s.faultCause := rfl
@[simp] theorem State.setRun_faultPc (s : State) (r : RunState) : (s.setRun r).faultPc = s.faultPc := rfl
@[simp] theorem State.setRun_diags (s : State) (r : RunState) : (s.setRun r).diags = s.diags := rfl
@[simp] theorem State.setRun_env (s : State) (r : RunState) : (s.setRun r).env = s.env := rfl
@[simp] theorem State.setRun_getV (s : State) (r : RunState) (k : Nibble) : (s.setRun r).getV k = s.getV k := rfl
@[simp] theorem State.setRun_readByte (s : State) (r : RunState) (p : Word) : (s.setRun r).readByte p = s.readByte p := rfl
@[simp] theorem State.setRun_pixel (s : State) (r : RunState) (p : Fin 32) (q : Fin 64) : (s.setRun r).pixel p q = s.pixel p q := rfl

/-! ## setEnv -/

@[simp] theorem State.setEnv_mem (s : State) (e : Env) : (s.setEnv e).mem = s.mem := rfl
@[simp] theorem State.setEnv_v (s : State) (e : Env) : (s.setEnv e).v = s.v := rfl
@[simp] theorem State.setEnv_i (s : State) (e : Env) : (s.setEnv e).i = s.i := rfl
@[simp] theorem State.setEnv_pc (s : State) (e : Env) : (s.setEnv e).pc = s.pc := rfl
@[simp] theorem State.setEnv_sp (s : State) (e : Env) : (s.setEnv e).sp = s.sp := rfl
@[simp] theorem State.setEnv_stack (s : State) (e : Env) : (s.setEnv e).stack = s.stack := rfl
@[simp] theorem State.setEnv_dt (s : State) (e : Env) : (s.setEnv e).dt = s.dt := rfl
@[simp] theorem State.setEnv_st (s : State) (e : Env) : (s.setEnv e).st = s.st := rfl
@[simp] theorem State.setEnv_disp (s : State) (e : Env) : (s.setEnv e).disp = s.disp := rfl
@[simp] theorem State.setEnv_run (s : State) (e : Env) : (s.setEnv e).run = s.run := rfl
@[simp] theorem State.setEnv_faultCause (s : State) (e : Env) : (s.setEnv e).faultCause = s.faultCause := rfl
@[simp] theorem State.setEnv_faultPc (s : State) (e : Env) : (s.setEnv e).faultPc = s.faultPc := rfl
@[simp] theorem State.setEnv_diags (s : State) (e : Env) : (s.setEnv e).diags = s.diags := rfl
@[simp] theorem State.setEnv_env (s : State) (e : Env) : (s.setEnv e).env = e := rfl
@[simp] theorem State.setEnv_getV (s : State) (e : Env) (k : Nibble) : (s.setEnv e).getV k = s.getV k := rfl
@[simp] theorem State.setEnv_readByte (s : State) (e : Env) (p : Word) : (s.setEnv e).readByte p = s.readByte p := rfl
@[simp] theorem State.setEnv_pixel (s : State) (e : Env) (p : Fin 32) (q : Fin 64) : (s.setEnv e).pixel p q = s.pixel p q := rfl

/-! ## advance -/

@[simp] theorem State.advance_mem (s : State) : (s.advance).mem = s.mem := rfl
@[simp] theorem State.advance_v (s : State) : (s.advance).v = s.v := rfl
@[simp] theorem State.advance_i (s : State) : (s.advance).i = s.i := rfl
@[simp] theorem State.advance_pc (s : State) : (s.advance).pc = s.pc + 2 := rfl
@[simp] theorem State.advance_sp (s : State) : (s.advance).sp = s.sp := rfl
@[simp] theorem State.advance_stack (s : State) : (s.advance).stack = s.stack := rfl
@[simp] theorem State.advance_dt (s : State) : (s.advance).dt = s.dt := rfl
@[simp] theorem State.advance_st (s : State) : (s.advance).st = s.st := rfl
@[simp] theorem State.advance_disp (s : State) : (s.advance).disp = s.disp := rfl
@[simp] theorem State.advance_run (s : State) : (s.advance).run = s.run := rfl
@[simp] theorem State.advance_faultCause (s : State) : (s.advance).faultCause = s.faultCause := rfl
@[simp] theorem State.advance_faultPc (s : State) : (s.advance).faultPc = s.faultPc := rfl
@[simp] theorem State.advance_diags (s : State) : (s.advance).diags = s.diags := rfl
@[simp] theorem State.advance_env (s : State) : (s.advance).env = s.env := rfl
@[simp] theorem State.advance_getV (s : State) (k : Nibble) : (s.advance).getV k = s.getV k := rfl
@[simp] theorem State.advance_readByte (s : State) (p : Word) : (s.advance).readByte p = s.readByte p := rfl
@[simp] theorem State.advance_pixel (s : State) (p : Fin 32) (q : Fin 64) : (s.advance).pixel p q = s.pixel p q := rfl

/-! ## writeBytes -/

@[simp] theorem State.writeBytes_mem (s : State) (a : Word) (bs : List Byte) : (s.writeBytes a bs).mem = s.mem.writeBytes a bs := rfl
@[simp] theorem State.writeBytes_v (s : State) (a : Word) (bs : List Byte) : (s.writeBytes a bs).v = s.v := rfl
@[simp] theorem State.writeBytes_i (s : State) (a : Word) (bs : List Byte) : (s.writeBytes a bs).i = s.i := rfl
@[simp] theorem State.writeBytes_pc (s : State) (a : Word) (bs : List Byte) : (s.writeBytes a bs).pc = s.pc := rfl
@[simp] theorem State.writeBytes_sp (s : State) (a : Word) (bs : List Byte) : (s.writeBytes a bs).sp = s.sp := rfl
@[simp] theorem State.writeBytes_stack (s : State) (a : Word) (bs : List Byte) : (s.writeBytes a bs).stack = s.stack := rfl
@[simp] theorem State.writeBytes_dt (s : State) (a : Word) (bs : List Byte) : (s.writeBytes a bs).dt = s.dt := rfl
@[simp] theorem State.writeBytes_st (s : State) (a : Word) (bs : List Byte) : (s.writeBytes a bs).st = s.st := rfl
@[simp] theorem State.writeBytes_disp (s : State) (a : Word) (bs : List Byte) : (s.writeBytes a bs).disp = s.disp := rfl
@[simp] theorem State.writeBytes_run (s : State) (a : Word) (bs : List Byte) : (s.writeBytes a bs).run = s.run := rfl
@[simp] theorem State.writeBytes_faultCause (s : State) (a : Word) (bs : List Byte) : (s.writeBytes a bs).faultCause = s.faultCause := rfl
@[simp] theorem State.writeBytes_faultPc (s : State) (a : Word) (bs : List Byte) : (s.writeBytes a bs).faultPc = s.faultPc := rfl
@[simp] theorem State.writeBytes_diags (s : State) (a : Word) (bs : List Byte) : (s.writeBytes a bs).diags = s.diags := rfl
@[simp] theorem State.writeBytes_env (s : State) (a : Word) (bs : List Byte) : (s.writeBytes a bs).env = s.env := rfl
@[simp] theorem State.writeBytes_getV (s : State) (a : Word) (bs : List Byte) (k : Nibble) : (s.writeBytes a bs).getV k = s.getV k := rfl
@[simp] theorem State.writeBytes_pixel (s : State) (a : Word) (bs : List Byte) (p : Fin 32) (q : Fin 64) : (s.writeBytes a bs).pixel p q = s.pixel p q := rfl

/-! ## setRegsFrom0 -/

@[simp] theorem State.setRegsFrom0_mem (s : State) (bs : List Byte) : (s.setRegsFrom0 bs).mem = s.mem := rfl
@[simp] theorem State.setRegsFrom0_v (s : State) (bs : List Byte) : (s.setRegsFrom0 bs).v = writeRegs s.v 0 bs := rfl
@[simp] theorem State.setRegsFrom0_i (s : State) (bs : List Byte) : (s.setRegsFrom0 bs).i = s.i := rfl
@[simp] theorem State.setRegsFrom0_pc (s : State) (bs : List Byte) : (s.setRegsFrom0 bs).pc = s.pc := rfl
@[simp] theorem State.setRegsFrom0_sp (s : State) (bs : List Byte) : (s.setRegsFrom0 bs).sp = s.sp := rfl
@[simp] theorem State.setRegsFrom0_stack (s : State) (bs : List Byte) : (s.setRegsFrom0 bs).stack = s.stack := rfl
@[simp] theorem State.setRegsFrom0_dt (s : State) (bs : List Byte) : (s.setRegsFrom0 bs).dt = s.dt := rfl
@[simp] theorem State.setRegsFrom0_st (s : State) (bs : List Byte) : (s.setRegsFrom0 bs).st = s.st := rfl
@[simp] theorem State.setRegsFrom0_disp (s : State) (bs : List Byte) : (s.setRegsFrom0 bs).disp = s.disp := rfl
@[simp] theorem State.setRegsFrom0_run (s : State) (bs : List Byte) : (s.setRegsFrom0 bs).run = s.run := rfl
@[simp] theorem State.setRegsFrom0_faultCause (s : State) (bs : List Byte) : (s.setRegsFrom0 bs).faultCause = s.faultCause := rfl
@[simp] theorem State.setRegsFrom0_faultPc (s : State) (bs : List Byte) : (s.setRegsFrom0 bs).faultPc = s.faultPc := rfl
@[simp] theorem State.setRegsFrom0_diags (s : State) (bs : List Byte) : (s.setRegsFrom0 bs).diags = s.diags := rfl
@[simp] theorem State.setRegsFrom0_env (s : State) (bs : List Byte) : (s.setRegsFrom0 bs).env = s.env := rfl
@[simp] theorem State.setRegsFrom0_readByte (s : State) (bs : List Byte) (p : Word) : (s.setRegsFrom0 bs).readByte p = s.readByte p := rfl
@[simp] theorem State.setRegsFrom0_pixel (s : State) (bs : List Byte) (p : Fin 32) (q : Fin 64) : (s.setRegsFrom0 bs).pixel p q = s.pixel p q := rfl

/-! ## setFlag -/

@[simp] theorem State.setFlag_mem (s : State) (f : Bool) : (s.setFlag f).mem = s.mem := rfl
@[simp] theorem State.setFlag_v (s : State) (f : Bool) : (s.setFlag f).v = s.v.set 15 (if f then 1 else 0) (by decide) := rfl
@[simp] theorem State.setFlag_i (s : State) (f : Bool) : (s.setFlag f).i = s.i := rfl
@[simp] theorem State.setFlag_pc (s : State) (f : Bool) : (s.setFlag f).pc = s.pc := rfl
@[simp] theorem State.setFlag_sp (s : State) (f : Bool) : (s.setFlag f).sp = s.sp := rfl
@[simp] theorem State.setFlag_stack (s : State) (f : Bool) : (s.setFlag f).stack = s.stack := rfl
@[simp] theorem State.setFlag_dt (s : State) (f : Bool) : (s.setFlag f).dt = s.dt := rfl
@[simp] theorem State.setFlag_st (s : State) (f : Bool) : (s.setFlag f).st = s.st := rfl
@[simp] theorem State.setFlag_disp (s : State) (f : Bool) : (s.setFlag f).disp = s.disp := rfl
@[simp] theorem State.setFlag_run (s : State) (f : Bool) : (s.setFlag f).run = s.run := rfl
@[simp] theorem State.setFlag_faultCause (s : State) (f : Bool) : (s.setFlag f).faultCause = s.faultCause := rfl
@[simp] theorem State.setFlag_faultPc (s : State) (f : Bool) : (s.setFlag f).faultPc = s.faultPc := rfl
@[simp] theorem State.setFlag_diags (s : State) (f : Bool) : (s.setFlag f).diags = s.diags := rfl
@[simp] theorem State.setFlag_env (s : State) (f : Bool) : (s.setFlag f).env = s.env := rfl
@[simp] theorem State.setFlag_readByte (s : State) (f : Bool) (p : Word) : (s.setFlag f).readByte p = s.readByte p := rfl
@[simp] theorem State.setFlag_pixel (s : State) (f : Bool) (p : Fin 32) (q : Fin 64) : (s.setFlag f).pixel p q = s.pixel p q := rfl

/-! ## raiseFault -/

@[simp] theorem State.raiseFault_mem (s : State) (c : Cause) : (s.raiseFault c).mem = s.mem := rfl
@[simp] theorem State.raiseFault_v (s : State) (c : Cause) : (s.raiseFault c).v = s.v := rfl
@[simp] theorem State.raiseFault_i (s : State) (c : Cause) : (s.raiseFault c).i = s.i := rfl
@[simp] theorem State.raiseFault_pc (s : State) (c : Cause) : (s.raiseFault c).pc = s.pc := rfl
@[simp] theorem State.raiseFault_sp (s : State) (c : Cause) : (s.raiseFault c).sp = s.sp := rfl
@[simp] theorem State.raiseFault_stack (s : State) (c : Cause) : (s.raiseFault c).stack = s.stack := rfl
@[simp] theorem State.raiseFault_dt (s : State) (c : Cause) : (s.raiseFault c).dt = s.dt := rfl
@[simp] theorem State.raiseFault_st (s : State) (c : Cause) : (s.raiseFault c).st = s.st := rfl
@[simp] theorem State.raiseFault_disp (s : State) (c : Cause) : (s.raiseFault c).disp = s.disp := rfl
@[simp] theorem State.raiseFault_run (s : State) (c : Cause) : (s.raiseFault c).run = .halted c := rfl
@[simp] theorem State.raiseFault_faultCause (s : State) (c : Cause) : (s.raiseFault c).faultCause = c.code := rfl
@[simp] theorem State.raiseFault_faultPc (s : State) (c : Cause) : (s.raiseFault c).faultPc = s.pc := rfl
@[simp] theorem State.raiseFault_diags (s : State) (c : Cause) : (s.raiseFault c).diags = s.diags := rfl
@[simp] theorem State.raiseFault_env (s : State) (c : Cause) : (s.raiseFault c).env = s.env := rfl
@[simp] theorem State.raiseFault_getV (s : State) (c : Cause) (k : Nibble) : (s.raiseFault c).getV k = s.getV k := rfl
@[simp] theorem State.raiseFault_readByte (s : State) (c : Cause) (p : Word) : (s.raiseFault c).readByte p = s.readByte p := rfl
@[simp] theorem State.raiseFault_pixel (s : State) (c : Cause) (p : Fin 32) (q : Fin 64) : (s.raiseFault c).pixel p q = s.pixel p q := rfl

/-! ## unknownWord -/

@[simp] theorem State.unknownWord_mem (s : State) (w : Word) : (s.unknownWord w).mem = s.mem := rfl
@[simp] theorem State.unknownWord_v (s : State) (w : Word) : (s.unknownWord w).v = s.v := rfl
@[simp] theorem State.unknownWord_i (s : State) (w : Word) : (s.unknownWord w).i = s.i := rfl
@[simp] theorem State.unknownWord_pc (s : State) (w : Word) : (s.unknownWord w).pc = s.pc + 2 := rfl
@[simp] theorem State.unknownWord_sp (s : State) (w : Word) : (s.unknownWord w).sp = s.sp := rfl
@[simp] theorem State.unknownWord_stack (s : State) (w : Word) : (s.unknownWord w).stack = s.stack := rfl
@[simp] theorem State.unknownWord_dt (s : State) (w : Word) : (s.unknownWord w).dt = s.dt := rfl
@[simp] theorem State.unknownWord_st (s : State) (w : Word) : (s.unknownWord w).st = s.st := rfl
@[simp] theorem State.unknownWord_disp (s : State) (w : Word) : (s.unknownWord w).disp = s.disp := rfl
@[simp] theorem State.unknownWord_run (s : State) (w : Word) : (s.unknownWord w).run = s.run := rfl
@[simp] theorem State.unknownWord_faultCause (s : State) (w : Word) : (s.unknownWord w).faultCause = s.faultCause := rfl
@[simp] theorem State.unknownWord_faultPc (s : State) (w : Word) : (s.unknownWord w).faultPc = s.faultPc := rfl
@[simp] theorem State.unknownWord_diags (s : State) (w : Word) : (s.unknownWord w).diags = s.diags ++ [⟨s.pc, w⟩] := rfl
@[simp] theorem State.unknownWord_env (s : State) (w : Word) : (s.unknownWord w).env = s.env := rfl
@[simp] theorem State.unknownWord_getV (s : State) (w : Word) (k : Nibble) : (s.unknownWord w).getV k = s.getV k := rfl
@[simp] theorem State.unknownWord_readByte (s : State) (w : Word) (p : Word) : (s.unknownWord w).readByte p = s.readByte p := rfl
@[simp] theorem State.unknownWord_pixel (s : State) (w : Word) (p : Fin 32) (q : Fin 64) : (s.unknownWord w).pixel p q = s.pixel p q := rfl

/-! ## dropInput -/

@[simp] theorem State.dropInput_mem (s : State) : (s.dropInput).mem = s.mem := rfl
@[simp] theorem State.dropInput_v (s : State) : (s.dropInput).v = s.v := rfl
@[simp] theorem State.dropInput_i (s : State) : (s.dropInput).i = s.i := rfl
@[simp] theorem State.dropInput_pc (s : State) : (s.dropInput).pc = s.pc := rfl
@[simp] theorem State.dropInput_sp (s : State) : (s.dropInput).sp = s.sp := rfl
@[simp] theorem State.dropInput_stack (s : State) : (s.dropInput).stack = s.stack := rfl
@[simp] theorem State.dropInput_dt (s : State) : (s.dropInput).dt = s.dt := rfl
@[simp] theorem State.dropInput_st (s : State) : (s.dropInput).st = s.st := rfl
@[simp] theorem State.dropInput_disp (s : State) : (s.dropInput).disp = s.disp := rfl
@[simp] theorem State.dropInput_run (s : State) : (s.dropInput).run = s.run := rfl
@[simp] theorem State.dropInput_faultCause (s : State) : (s.dropInput).faultCause = s.faultCause := rfl
@[simp] theorem State.dropInput_faultPc (s : State) : (s.dropInput).faultPc = s.faultPc := rfl
@[simp] theorem State.dropInput_diags (s : State) : (s.dropInput).diags = s.diags := rfl
@[simp] theorem State.dropInput_env (s : State) : (s.dropInput).env = { s.env with pending := s.env.pending.tail } := rfl
@[simp] theorem State.dropInput_getV (s : State) (k : Nibble) : (s.dropInput).getV k = s.getV k := rfl
@[simp] theorem State.dropInput_readByte (s : State) (p : Word) : (s.dropInput).readByte p = s.readByte p := rfl
@[simp] theorem State.dropInput_pixel (s : State) (p : Fin 32) (q : Fin 64) : (s.dropInput).pixel p q = s.pixel p q := rfl

/-! ## init -/

@[simp] theorem State.init_mem (s : State) : (s.init).mem = Memory.initial s.env.font := rfl
@[simp] theorem State.init_v (s : State) : (s.init).v = Vector.replicate 16 0 := rfl
@[simp] theorem State.init_i (s : State) : (s.init).i = 0 := rfl
@[simp] theorem State.init_pc (s : State) : (s.init).pc = 0x200 := rfl
@[simp] theorem State.init_sp (s : State) : (s.init).sp = 0 := rfl
@[simp] theorem State.init_stack (s : State) : (s.init).stack = Vector.replicate 16 0 := rfl
@[simp] theorem State.init_dt (s : State) : (s.init).dt = 0 := rfl
@[simp] theorem State.init_st (s : State) : (s.init).st = 0 := rfl
@[simp] theorem State.init_disp (s : State) : (s.init).disp = Display.clear := rfl
@[simp] theorem State.init_run (s : State) : (s.init).run = s.run := rfl
@[simp] theorem State.init_faultCause (s : State) : (s.init).faultCause = 0 := rfl
@[simp] theorem State.init_faultPc (s : State) : (s.init).faultPc = 0 := rfl
@[simp] theorem State.init_diags (s : State) : (s.init).diags = s.diags := rfl
@[simp] theorem State.init_env (s : State) : (s.init).env = s.env := rfl

/-! ## skipIf: only PC changes -/

@[simp] theorem State.skipIf_mem (s : State) (c : Bool) : (s.skipIf c).mem = s.mem := by cases c <;> rfl
@[simp] theorem State.skipIf_v (s : State) (c : Bool) : (s.skipIf c).v = s.v := by cases c <;> rfl
@[simp] theorem State.skipIf_i (s : State) (c : Bool) : (s.skipIf c).i = s.i := by cases c <;> rfl
@[simp] theorem State.skipIf_pc (s : State) (c : Bool) : (s.skipIf c).pc = if c then s.pc + 2 else s.pc := by
  cases c <;> rfl
@[simp] theorem State.skipIf_sp (s : State) (c : Bool) : (s.skipIf c).sp = s.sp := by cases c <;> rfl
@[simp] theorem State.skipIf_stack (s : State) (c : Bool) : (s.skipIf c).stack = s.stack := by cases c <;> rfl
@[simp] theorem State.skipIf_dt (s : State) (c : Bool) : (s.skipIf c).dt = s.dt := by cases c <;> rfl
@[simp] theorem State.skipIf_st (s : State) (c : Bool) : (s.skipIf c).st = s.st := by cases c <;> rfl
@[simp] theorem State.skipIf_disp (s : State) (c : Bool) : (s.skipIf c).disp = s.disp := by cases c <;> rfl
@[simp] theorem State.skipIf_run (s : State) (c : Bool) : (s.skipIf c).run = s.run := by cases c <;> rfl
@[simp] theorem State.skipIf_faultCause (s : State) (c : Bool) : (s.skipIf c).faultCause = s.faultCause := by cases c <;> rfl
@[simp] theorem State.skipIf_faultPc (s : State) (c : Bool) : (s.skipIf c).faultPc = s.faultPc := by cases c <;> rfl
@[simp] theorem State.skipIf_diags (s : State) (c : Bool) : (s.skipIf c).diags = s.diags := by cases c <;> rfl
@[simp] theorem State.skipIf_env (s : State) (c : Bool) : (s.skipIf c).env = s.env := by cases c <;> rfl
@[simp] theorem State.skipIf_getV (s : State) (c : Bool) (k : Nibble) : (s.skipIf c).getV k = s.getV k := by cases c <;> rfl
@[simp] theorem State.skipIf_readByte (s : State) (c : Bool) (p : Word) : (s.skipIf c).readByte p = s.readByte p := by cases c <;> rfl
@[simp] theorem State.skipIf_pixel (s : State) (c : Bool) (p : Fin 32) (q : Fin 64) : (s.skipIf c).pixel p q = s.pixel p q := by
  cases c <;> rfl

/-! ## Registers -/

/-- Reading a V register after writing one. -/
theorem State.getV_setV (s : State) (x k : Nibble) (b : Byte) : (s.setV x b).getV k = if k = x then b else s.getV k := by
  unfold State.getV State.setV
  simp only [Vector.getElem_set, BitVec.toNat_inj, eq_comm]

@[simp] theorem State.getV_setV_self (s : State) (x : Nibble) (b : Byte) : (s.setV x b).getV x = b := by
  simp [State.getV_setV]

theorem State.getV_setV_of_ne (s : State) {x k : Nibble} (b : Byte) (h : k ≠ x) : (s.setV x b).getV k = s.getV k := by
  simp [State.getV_setV, h]

/-- Reading a V register after the flag write: VF holds the flag, every other register what it held. -/
theorem State.getV_setFlag (s : State) (f : Bool) (k : Nibble) :
    (s.setFlag f).getV k = if k = 0xF then (if f then 1 else 0) else s.getV k :=
  State.getV_setV s 0xF k _

/-! ## The next input -/

theorem State.nextInput_of_pending_nil {s : State} (h : s.env.pending = []) : s.nextInput = .step := by
  simp [State.nextInput, h]

theorem State.nextInput_of_pending_cons {s : State} {e : Input} {es : List Input} (h : s.env.pending = e :: es) :
    s.nextInput = e := by
  simp [State.nextInput, h]

end Sys2Proof.Machine
end

