-- ==== Sys2Proof/Laws/Display.lean ====
section
/-!
SUPPORT. What DRW's loops do, said once: they flip the sprite's set points, each once, and report whether one of them was
set (spec/41_display.md R101, R103, R104).
-/

namespace Sys2Proof.Machine

/-- Flipping one pixel changes that pixel and no other. -/
theorem Display.pixel_flip (d : Display) (y p : Fin 32) (x q : Fin 64) :
    (d.flip y x).pixel p q = (d.pixel p q ^^ decide (p = y ∧ q = x)) := by
  unfold Display.pixel Display.flip
  by_cases hp : p = y
  · subst hp
    simp [Fin.ext_iff, eq_comm]
  · have : y.val ≠ p.val := fun h => hp (Fin.ext h.symm)
    simp [hp, this]

@[simp] theorem Display.pixel_clear (y : Fin 32) (x : Fin 64) : Display.clear.pixel y x = false := by
  simp [Display.clear, Display.pixel]

/-! ## The sprite as a list of points -/

/-- Flips the points in turn and collects collisions. -/
def Display.drawPoints (ps : List (Fin 32 × Fin 64)) (acc : Display × Bool) : Display × Bool :=
  ps.foldl (fun acc p => Display.drawPixel true p.1 p.2 acc) acc

/-- The points one sprite byte sets. -/
def rowPoints (b : Byte) (cx : Nat) (y : Fin 32) : List (Fin 32 × Fin 64) :=
  ((List.range 8).filter (fun c => b.getLsbD (7 - c))).map (fun c => (y, Fin.ofNat 64 (cx + c)))

/-- The points a sprite sets, top row first. -/
def spritePoints (cx : Nat) : Nat → List Byte → List (Fin 32 × Fin 64)
  | _, [] => []
  | cy, b :: bs => rowPoints b cx (Fin.ofNat 32 cy) ++ spritePoints cx (cy + 1) bs

theorem Display.drawPoints_append (ps qs : List (Fin 32 × Fin 64)) (acc : Display × Bool) :
    Display.drawPoints (ps ++ qs) acc = Display.drawPoints qs (Display.drawPoints ps acc) := by
  simp [Display.drawPoints]

theorem Display.drawRow_eq_drawPoints (b : Byte) (cx : Nat) (y : Fin 32) (acc : Display × Bool) :
    Display.drawRow b cx y acc = Display.drawPoints (rowPoints b cx y) acc := by
  unfold Display.drawRow Display.drawPoints rowPoints
  rw [List.foldl_map, List.foldl_filter]
  rfl

theorem Display.drawRows_eq_drawPoints (cx cy : Nat) (bs : List Byte) (acc : Display × Bool) :
    Display.drawRows cx cy bs acc = Display.drawPoints (spritePoints cx cy bs) acc := by
  induction bs generalizing cy acc with
  | nil => rfl
  | cons b bs ih =>
    rw [Display.drawRows, ih, Display.drawRow_eq_drawPoints, spritePoints, Display.drawPoints_append]

theorem mem_rowPoints (b : Byte) (cx : Nat) (y p : Fin 32) (q : Fin 64) :
    (p, q) ∈ rowPoints b cx y ↔ p = y ∧ ∃ c < 8, b.getLsbD (7 - c) = true ∧ q = Fin.ofNat 64 (cx + c) := by
  simp only [rowPoints, List.mem_map, List.mem_filter, List.mem_range, Prod.mk.injEq]
  constructor
  · rintro ⟨c, ⟨hc, hb⟩, hy, hx⟩
    exact ⟨hy.symm, c, hc, hb, hx.symm⟩
  · rintro ⟨hy, c, hc, hb, hx⟩
    exact ⟨c, ⟨hc, hb⟩, hy.symm, hx.symm⟩

/-- The points of a sprite: row r, column c of it, for each set bit 7 - c of byte r (R101, R102, R103). -/
theorem mem_spritePoints (cx cy : Nat) (bs : List Byte) (p : Fin 32) (q : Fin 64) :
    (p, q) ∈ spritePoints cx cy bs ↔
      ∃ r c, ∃ h : r < bs.length, c < 8 ∧ bs[r].getLsbD (7 - c) = true ∧ p = Fin.ofNat 32 (cy + r) ∧
        q = Fin.ofNat 64 (cx + c) := by
  induction bs generalizing cy with
  | nil => simp [spritePoints]
  | cons b bs ih =>
    rw [spritePoints, List.mem_append, mem_rowPoints, ih]
    constructor
    · rintro (⟨hp, c, hc, hb, hq⟩ | ⟨r, c, hr, hc, hb, hp, hq⟩)
      · exact ⟨0, c, by simp, hc, hb, hp, hq⟩
      · exact ⟨r + 1, c, by simpa using hr, hc, by simpa using hb, by rw [hp]; congr 1; omega, hq⟩
    · rintro ⟨r, c, hr, hc, hb, hp, hq⟩
      cases r with
      | zero => exact Or.inl ⟨hp, c, hc, hb, hq⟩
      | succ r =>
        exact Or.inr ⟨r, c, by simpa using hr, hc, by simpa using hb, by rw [hp]; congr 1; omega, hq⟩

theorem nodup_rowPoints (b : Byte) (cx : Nat) (y : Fin 32) : (rowPoints b cx y).Nodup := by
  refine List.Nodup.map_on ?_ (List.Nodup.filter _ List.nodup_range)
  intro c hc d hd h
  simp only [List.mem_filter, List.mem_range] at hc hd
  simp only [Prod.mk.injEq, Fin.ext_iff, Fin.val_ofNat] at h
  omega

/-- "No two pixels of one sprite land on the same display pixel" (R103): a sprite has at most 32 rows. -/
theorem nodup_spritePoints (cx cy : Nat) (bs : List Byte) (h : bs.length ≤ 32) : (spritePoints cx cy bs).Nodup := by
  induction bs generalizing cy with
  | nil => simp [spritePoints]
  | cons b bs ih =>
    simp only [List.length_cons] at h
    refine List.Nodup.append (nodup_rowPoints _ _ _) (ih _ (by omega)) ?_
    rintro ⟨p, q⟩ h1 h2
    obtain ⟨hp, -⟩ := (mem_rowPoints _ _ _ _ _).mp h1
    obtain ⟨r, c, hr, -, -, hp', -⟩ := (mem_spritePoints _ _ _ _ _).mp h2
    rw [hp] at hp'
    simp only [Fin.ext_iff, Fin.val_ofNat] at hp'
    omega

/-- Each point flipped once; a collision is a point that was set. -/
theorem Display.drawPoints_spec (ps : List (Fin 32 × Fin 64)) (hn : ps.Nodup) (d : Display) (f : Bool) :
    (∀ p q, (Display.drawPoints ps (d, f)).1.pixel p q = (d.pixel p q ^^ decide ((p, q) ∈ ps))) ∧
      ((Display.drawPoints ps (d, f)).2 = true ↔ f = true ∨ ∃ p q, (p, q) ∈ ps ∧ d.pixel p q = true) := by
  induction ps generalizing d f with
  | nil => simp [Display.drawPoints]
  | cons a ps ih =>
    obtain ⟨ha, hps⟩ := List.nodup_cons.mp hn
    have e : Display.drawPoints (a :: ps) (d, f) = Display.drawPoints ps (d.flip a.1 a.2, f || d.pixel a.1 a.2) := rfl
    obtain ⟨h1, h2⟩ := ih hps (d.flip a.1 a.2) (f || d.pixel a.1 a.2)
    rw [e]
    constructor
    · intro p q
      rw [h1, Display.pixel_flip]
      by_cases hpa : (p, q) = a
      · subst hpa; simp [ha]
      · have : ¬(p = a.1 ∧ q = a.2) := fun h => hpa (Prod.ext h.1 h.2)
        simp [this, hpa]
    · rw [h2]
      constructor
      · rintro (h | ⟨p, q, hm, hx⟩)
        · rcases Bool.or_eq_true_iff.mp h with h | h
          · exact Or.inl h
          · exact Or.inr ⟨a.1, a.2, by simp, h⟩
        · have hpa : ¬(p = a.1 ∧ q = a.2) := fun h => ha (by obtain ⟨rfl, rfl⟩ := h; exact hm)
          exact Or.inr ⟨p, q, by simp [hm], by simpa [Display.pixel_flip, hpa] using hx⟩
      · rintro (h | ⟨p, q, hm, hx⟩)
        · exact Or.inl (by simp [h])
        · rcases List.mem_cons.mp hm with rfl | hm
          · exact Or.inl (by simp [hx])
          · have hpa : ¬(p = a.1 ∧ q = a.2) := fun h => ha (by obtain ⟨rfl, rfl⟩ := h; exact hm)
            exact Or.inr ⟨p, q, hm, by simpa [Display.pixel_flip, hpa] using hx⟩

/-- What the sprite loop does to every pixel, and when it reports a collision. -/
theorem Display.drawRows_spec (cx cy : Nat) (bs : List Byte) (h : bs.length ≤ 32) (d : Display) :
    (∀ p q, (Display.drawRows cx cy bs (d, false)).1.pixel p q = (d.pixel p q ^^ decide ((p, q) ∈ spritePoints cx cy bs))) ∧
      ((Display.drawRows cx cy bs (d, false)).2 = true ↔ ∃ p q, (p, q) ∈ spritePoints cx cy bs ∧ d.pixel p q = true) := by
  rw [Display.drawRows_eq_drawPoints]
  simpa using Display.drawPoints_spec _ (nodup_spritePoints cx cy bs h) d false

/-- Two displays with the same pixels are the same display. -/
theorem Display.ext_pixel {d e : Display} (h : ∀ y x, d.pixel y x = e.pixel y x) : d = e := by
  refine Vector.ext (fun k hk => BitVec.eq_of_getLsbD_eq (fun j hj => ?_))
  exact h ⟨k, hk⟩ ⟨j, hj⟩

end Sys2Proof.Machine
end

