-- ==== Sys2Proof/Laws/Memory.lean ====
section
/-!
SUPPORT. The laws of memory: a read after a write, the canonical form, and what a run of bytes reads as. The read laws
hold of every list; only the canonical form needs `Memory.wf`.
-/

namespace Sys2Proof.Machine

/-! ## One byte -/

theorem Memory.read_filter_ne (m : Memory) {a c : Nat} (h : c ≠ a) :
    Memory.read (m.filter (fun d => d.1 != a)) c = Memory.read m c := by
  induction m with
  | nil => rfl
  | cons d m ih =>
    by_cases hd : d.1 = a
    · simp [Memory.read, hd, ih, h.symm]
    · simp [Memory.read, hd, ih]

theorem Memory.read_filter_self (m : Memory) (a : Nat) :
    Memory.read (m.filter (fun d => d.1 != a)) a = Memory.unlisted a := by
  induction m with
  | nil => rfl
  | cons d m ih =>
    by_cases hd : d.1 = a
    · simp [hd, ih]
    · simp [Memory.read, hd, ih]

theorem Memory.read_insertCell_ne (m : Memory) {a c : Nat} (b : Byte) (h : c ≠ a) :
    Memory.read (Memory.insertCell a b m) c = Memory.read m c := by
  induction m with
  | nil => simp [Memory.insertCell, Memory.read, h.symm]
  | cons d m ih =>
    unfold Memory.insertCell
    split
    · simp [Memory.read, h.symm]
    · simp [Memory.read, ih]

theorem Memory.read_insertCell_self (m : Memory) (a : Nat) (b : Byte) (h : ∀ d ∈ m, d.1 ≠ a) :
    Memory.read (Memory.insertCell a b m) a = b := by
  induction m with
  | nil => simp [Memory.insertCell, Memory.read]
  | cons d m ih =>
    have hd : d.1 ≠ a := h d (by simp)
    unfold Memory.insertCell
    split
    · simp [Memory.read]
    · simp [Memory.read, hd, ih (fun e he => h e (by simp [he]))]

/-- A read after a write: the byte written, or what was there. -/
theorem Memory.read_write (m : Memory) (a c : Nat) (b : Byte) :
    (m.write a b).read c = if c = a then b else m.read c := by
  have hne : ∀ d ∈ m.filter (fun d => d.1 != a), d.1 ≠ a := by simp
  unfold Memory.write
  by_cases hc : c = a
  · subst hc
    split
    · simp [Memory.read_filter_self, *]
    · simp [Memory.read_insertCell_self _ _ _ hne]
  · split <;> simp [hc, Memory.read_insertCell_ne, Memory.read_filter_ne]

@[simp] theorem Memory.read_write_self (m : Memory) (a : Nat) (b : Byte) : (m.write a b).read a = b := by
  simp [Memory.read_write]

theorem Memory.read_write_of_ne (m : Memory) {a c : Nat} (b : Byte) (h : c ≠ a) : (m.write a b).read c = m.read c := by
  simp [Memory.read_write, h]

/-! ## The canonical form -/

theorem Memory.wf_iff (m : Memory) :
    m.wf = true ↔ m.Pairwise (fun c d => c.1 < d.1) ∧ ∀ c ∈ m, c.1 < Config.memSize ∧ c.2 ≠ Memory.unlisted c.1 := by
  simp [Memory.wf]

theorem Memory.mem_insertCell {m : Memory} {a : Nat} {b : Byte} {c : Host.Cell} :
    c ∈ Memory.insertCell a b m ↔ c = (a, b) ∨ c ∈ m := by
  induction m with
  | nil => simp [Memory.insertCell]
  | cons d m ih =>
    unfold Memory.insertCell
    split
    · simp
    · simp only [List.mem_cons, ih]
      tauto

theorem Memory.pairwise_insertCell {m : Memory} {a : Nat} (b : Byte) (hne : ∀ d ∈ m, d.1 ≠ a)
    (h : m.Pairwise (fun c d => c.1 < d.1)) : (Memory.insertCell a b m).Pairwise (fun c d => c.1 < d.1) := by
  induction m with
  | nil => simp [Memory.insertCell]
  | cons d m ih =>
    obtain ⟨hd, hm⟩ := List.pairwise_cons.mp h
    unfold Memory.insertCell
    split
    · rename_i hlt
      refine List.pairwise_cons.mpr ⟨fun e he => ?_, h⟩
      rcases List.mem_cons.mp he with rfl | he
      · exact hlt
      · exact lt_trans hlt (hd e he)
    · rename_i hge
      refine List.pairwise_cons.mpr ⟨fun e he => ?_, ih (fun e he => hne e (by simp [he])) hm⟩
      rcases Memory.mem_insertCell.mp he with rfl | he
      · exact lt_of_le_of_ne (Nat.le_of_not_lt hge) (hne d (by simp))
      · exact hd e he

/-- A write inside the space keeps the canonical form. -/
theorem Memory.wf_write {m : Memory} (h : m.wf = true) {a : Nat} (ha : a < Config.memSize) (b : Byte) :
    (m.write a b).wf = true := by
  rw [Memory.wf_iff] at h ⊢
  have hp := h.1.sublist (List.filter_sublist (p := fun d => d.1 != a))
  have hall : ∀ c ∈ m.filter (fun d => d.1 != a), c.1 < Config.memSize ∧ c.2 ≠ Memory.unlisted c.1 :=
    fun c hc => h.2 c (List.mem_filter.mp hc).1
  unfold Memory.write
  split
  · exact ⟨hp, hall⟩
  · refine ⟨Memory.pairwise_insertCell b (by simp) hp, fun c hc => ?_⟩
    rcases Memory.mem_insertCell.mp hc with rfl | hc
    · exact ⟨ha, by assumption⟩
    · exact hall c hc

/-- Every 16-bit address reaches a cell inside the space. -/
theorem cellOf_lt (a : Word) : cellOf a < Config.memSize := Nat.mod_lt _ (by decide)

theorem Memory.wf_writeBytes {m : Memory} (h : m.wf = true) (a : Word) (bs : List Byte) :
    (m.writeBytes a bs).wf = true := by
  induction bs generalizing m a with
  | nil => exact h
  | cons b bs ih => exact ih (Memory.wf_write h (cellOf_lt a) b) (a + 1)

/-- The memory of Init is in canonical form, whatever the font. -/
theorem Memory.wf_initial (f : Font) : (Memory.initial f).wf = true :=
  Memory.wf_writeBytes (Memory.wf_writeBytes (by decide) _ _) _ _

/-- A cell with an address below every listed one is not listed. -/
theorem Memory.read_of_lt {m : Memory} {a : Nat} (h : ∀ c ∈ m, a < c.1) : m.read a = Memory.unlisted a := by
  induction m with
  | nil => rfl
  | cons c m ih =>
    have hc : c.1 ≠ a := (h c (by simp)).ne'
    simp [Memory.read, hc, ih (fun d hd => h d (by simp [hd]))]

/-- Equal memories are equal data: two canonical memories that read alike everywhere in the space are the same list. -/
theorem Memory.ext_of_wf {m n : Memory} (hm : m.wf = true) (hn : n.wf = true)
    (h : ∀ a < Config.memSize, m.read a = n.read a) : m = n := by
  rw [Memory.wf_iff] at hm hn
  induction m generalizing n with
  | nil =>
    cases n with
    | nil => rfl
    | cons d n =>
      have hd := hn.2 d (by simp)
      exact absurd (by simpa [Memory.read] using (h d.1 hd.1).symm) hd.2
  | cons c m ih =>
    have hc := hm.2 c (by simp)
    obtain ⟨hcm, hm'⟩ := List.pairwise_cons.mp hm.1
    cases n with
    | nil => exact absurd (by simpa [Memory.read] using h c.1 hc.1) hc.2
    | cons d n =>
      have hd := hn.2 d (by simp)
      obtain ⟨hdn, hn'⟩ := List.pairwise_cons.mp hn.1
      have hcd : c.1 = d.1 := by
        rcases lt_trichotomy c.1 d.1 with hlt | he | hgt
        · have hr : Memory.read (d :: n) c.1 = Memory.unlisted c.1 := by
            refine Memory.read_of_lt (fun e he => ?_)
            rcases List.mem_cons.mp he with rfl | he
            · exact hlt
            · exact lt_trans hlt (hdn e he)
          have e := h c.1 hc.1
          rw [hr] at e
          exact absurd (by simpa [Memory.read] using e) hc.2
        · exact he
        · have hr : Memory.read (c :: m) d.1 = Memory.unlisted d.1 := by
            refine Memory.read_of_lt (fun e he => ?_)
            rcases List.mem_cons.mp he with rfl | he
            · exact hgt
            · exact lt_trans hgt (hcm e he)
          have e := h d.1 hd.1
          rw [hr] at e
          exact absurd (by simpa [Memory.read] using e.symm) hd.2
      have hb : c.2 = d.2 := by simpa [Memory.read, hcd] using h c.1 hc.1
      have htail : m = n := by
        refine ih ⟨hm', fun e he => hm.2 e (by simp [he])⟩ ⟨hn', fun e he => hn.2 e (by simp [he])⟩ (fun a ha => ?_)
        by_cases hca : c.1 = a
        · rw [Memory.read_of_lt (m := m) (fun e he => hca ▸ hcm e he),
            Memory.read_of_lt (m := n) (fun e he => hca ▸ hcd ▸ hdn e he)]
        · have := h a ha
          simpa [Memory.read, hca, hcd ▸ hca] using this
      rw [htail, Prod.ext hcd hb]

/-! ## Runs of bytes -/

@[simp] theorem Memory.length_readBytes (m : Memory) (a : Word) (n : Nat) : (m.readBytes a n).length = n := by
  induction n generalizing a with
  | zero => rfl
  | succ n ih => simp [Memory.readBytes, ih]

/-- MemRead(a, n): byte k is the byte at a + k. -/
theorem Memory.getElem_readBytes (m : Memory) (a : Word) (n k : Nat) (h : k < (m.readBytes a n).length) :
    (m.readBytes a n)[k] = m.read (cellOf (a + BitVec.ofNat 16 k)) := by
  induction n generalizing a k with
  | zero => simp [Memory.readBytes] at h
  | succ n ih =>
    cases k with
    | zero => simp [Memory.readBytes]
    | succ k =>
      have e : a + BitVec.ofNat 16 (k + 1) = a + 1 + BitVec.ofNat 16 k := by
        rw [BitVec.ofNat_add]; ac_rfl
      simp only [Memory.readBytes, List.getElem_cons_succ, e]
      exact ih _ _ _

/-- Two different offsets below 4096 reach two different cells. -/
theorem cellOf_add_inj {a : Word} {j k : Nat} (hj : j < Config.memSize) (hk : k < Config.memSize)
    (h : cellOf (a + BitVec.ofNat 16 j) = cellOf (a + BitVec.ofNat 16 k)) : j = k := by
  have hs : Config.memSize = 4096 := rfl
  simp only [cellOf, hs, BitVec.toNat_add, BitVec.toNat_ofNat] at *
  omega

/-- A cell that none of the bytes goes to reads as before. -/
theorem Memory.read_writeBytes_of_ne (m : Memory) (a : Word) (bs : List Byte) {c : Nat}
    (h : ∀ k < bs.length, c ≠ cellOf (a + BitVec.ofNat 16 k)) : (m.writeBytes a bs).read c = m.read c := by
  induction bs generalizing m a with
  | nil => rfl
  | cons b bs ih =>
    have h0 : c ≠ cellOf a := by simpa using h 0 (by simp)
    rw [Memory.writeBytes, ih, Memory.read_write_of_ne _ _ h0]
    intro k hk
    have e : a + 1 + BitVec.ofNat 16 k = a + BitVec.ofNat 16 (k + 1) := by
      rw [BitVec.ofNat_add]; ac_rfl
    exact e ▸ h (k + 1) (by simpa using hk)

/-- MemWrite(a, n, bytes), n at most 4096: the byte at a + k is byte k. -/
theorem Memory.read_writeBytes (m : Memory) (a : Word) (bs : List Byte) (hl : bs.length ≤ Config.memSize) {k : Nat}
    (hk : k < bs.length) : (m.writeBytes a bs).read (cellOf (a + BitVec.ofNat 16 k)) = bs[k] := by
  induction bs generalizing m a k with
  | nil => simp at hk
  | cons b bs ih =>
    have e : ∀ j, a + 1 + BitVec.ofNat 16 j = a + BitVec.ofNat 16 (j + 1) := by
      intro j; rw [BitVec.ofNat_add]; ac_rfl
    simp only [List.length_cons] at hl hk
    cases k with
    | zero =>
      have hne : ∀ j < bs.length, cellOf a ≠ cellOf (a + 1 + BitVec.ofNat 16 j) := by
        intro j hj hc
        rw [e] at hc
        have := cellOf_add_inj (a := a) (j := 0) (k := j + 1) (by decide) (by omega) (by simpa using hc)
        omega
      rw [show a + BitVec.ofNat 16 0 = a by simp, Memory.writeBytes, Memory.read_writeBytes_of_ne _ _ _ hne]
      simp
    | succ k =>
      rw [Memory.writeBytes, ← e]
      exact ih _ _ (by omega) (by omega)

/-! ## The same laws of the state -/

theorem State.readByte_writeBytes_of_ne (s : State) (a : Word) (bs : List Byte) {c : Word}
    (h : ∀ k < bs.length, cellOf c ≠ cellOf (a + BitVec.ofNat 16 k)) : (s.writeBytes a bs).readByte c = s.readByte c :=
  Memory.read_writeBytes_of_ne _ _ _ h

theorem State.readByte_writeBytes (s : State) (a : Word) (bs : List Byte) (hl : bs.length ≤ Config.memSize) {k : Nat}
    (hk : k < bs.length) : (s.writeBytes a bs).readByte (a + BitVec.ofNat 16 k) = bs[k] :=
  Memory.read_writeBytes _ _ _ hl hk

/-! ## Memory after Init -/

theorem Memory.read_zeroed (c : Nat) : Memory.zeroed.read c = 0 := by
  by_cases hc : c < Config.fontBytes
  · have h := Memory.read_writeBytes [] defaultFont.base (List.replicate Config.fontBytes 0) (by decide) (k := c)
      (by simpa using hc)
    have e : cellOf (defaultFont.base + BitVec.ofNat 16 c) = c := by
      have : Config.fontBytes = 80 := rfl
      have hs : Config.memSize = 4096 := rfl
      simp [cellOf, defaultFont, hs]
      omega
    rw [e] at h
    simpa [Memory.zeroed] using h
  · rw [Memory.zeroed, Memory.read_writeBytes_of_ne]
    · have hl : defaultFontData.length = Config.fontBytes := by decide
      have hn : defaultFontData[c]? = none := List.getElem?_eq_none (by omega)
      simp [Memory.read, Memory.unlisted, defaultFont, hn]
    · intro k hk
      have : Config.fontBytes = 80 := rfl
      have hs : Config.memSize = 4096 := rfl
      simp [this] at hk
      simp [cellOf, defaultFont, hs]
      omega

/-- Init with the default font leaves nothing listed: it is the memory of `State.reset`. -/
theorem Memory.initial_defaultFont : Memory.initial defaultFont = [] := by decide +kernel

/-- Init puts the font bytes at FONT_BASE. -/
theorem Memory.read_initial_font (f : Font) (hl : f.data.length ≤ Config.memSize) {k : Nat} (hk : k < f.data.length) :
    (Memory.initial f).read (cellOf (f.base + BitVec.ofNat 16 k)) = f.data[k] :=
  Memory.read_writeBytes _ _ _ hl hk

/-- Init leaves zero in every cell that is no font byte. -/
theorem Memory.read_initial_zero (f : Font) {c : Nat} (h : ∀ k < f.data.length, c ≠ cellOf (f.base + BitVec.ofNat 16 k)) :
    (Memory.initial f).read c = 0 := by
  rw [Memory.initial, Memory.read_writeBytes_of_ne _ _ _ h, Memory.read_zeroed]

end Sys2Proof.Machine
end

