-- ==== Sys2Proof/Laws/Ops.lean ====
section
/-!
SUPPORT. What each shared operation does, said once: the stack, the register blocks, the order of inputs and the draw of a
random byte.
-/

namespace Sys2Proof

/-! ## The checks -/

/-- An image fits iff it has at most 3584 bytes (spec/70_reset_and_hazards.md R231). -/
theorem imageFits_iff (image : List Byte) : imageFits image = true ↔ image.length ≤ 3584 := by
  simp only [imageFits, decide_eq_true_eq]
  rfl

/-- What a well-formed font is (spec/00_scope.md R8, 44_index_memory.md R153). -/
theorem Font.wellFormed_iff (f : Font) : f.wellFormed = true ↔
    f.base.toNat + 80 ≤ 0x200 ∧ f.data.length = 80 ∧ ∀ b ∈ f.data, b.extractLsb' 0 4 = 0 := by
  simp only [Font.wellFormed, Bool.and_eq_true, decide_eq_true_eq, List.all_eq_true, beq_iff_eq, and_assoc]
  rfl

end Sys2Proof

namespace Sys2Proof.Machine

/-! ## Stack (spec/10_state.md R26) -/

/-- A push is refused exactly when the stack holds 16 entries. -/
theorem State.push_eq_none {s : State} {w : Word} : s.push w = none ↔ s.sp.val = 16 := by
  have := s.sp.isLt
  unfold State.push
  split <;> simp <;> omega

/-- A push writes S[SP] and counts it; nothing else changes. -/
theorem State.push_of_lt {s : State} (w : Word) (h : s.sp.val < 16) :
    s.push w = some { s with stack := s.stack.set s.sp.val w h, sp := ⟨s.sp.val + 1, Nat.succ_lt_succ h⟩ } := by
  simp [State.push, h]

/-- A pop is refused exactly when the stack is empty. -/
theorem State.pop_eq_none {s : State} : s.pop = none ↔ s.sp.val = 0 := by
  unfold State.pop
  split <;> simp [*]

/-- A pop answers S[SP - 1] and counts down; the entry keeps its value. -/
theorem State.pop_of_pos {s : State} (h : s.sp.val ≠ 0) :
    s.pop = some (s.stack[s.sp.val - 1]'(by omega), { s with sp := ⟨s.sp.val - 1, by omega⟩ }) := by
  simp only [State.pop, h, dif_neg, not_false_iff]

/-! ## Register blocks (spec/44_index_memory.md R155, R156) -/

@[simp] theorem State.length_regsUpTo (s : State) (x : Nibble) : (s.regsUpTo x).length = x.toNat + 1 := by
  have := x.isLt
  simp [State.regsUpTo]
  omega

/-- Byte k of the block is V[k]. -/
theorem State.getElem_regsUpTo (s : State) (x : Nibble) {k : Nat} (h : k < (s.regsUpTo x).length) :
    (s.regsUpTo x)[k] = s.getV (BitVec.ofNat 4 k) := by
  have hx := x.isLt
  have hk : k < 16 := by simp at h; omega
  have e : (BitVec.ofNat 4 k).toNat = k := by simp; omega
  simp [State.regsUpTo, State.getV, e]

/-- Register j after the block write: byte j - k where the block covers it. -/
theorem getElem_writeRegs (v : Vector Byte 16) (k : Nat) (bs : List Byte) (j : Nat) (hj : j < 16) :
    (writeRegs v k bs)[j] = if h : k ≤ j ∧ j - k < bs.length then bs[j - k]'h.2 else v[j] := by
  induction bs generalizing v k with
  | nil => simp [writeRegs]
  | cons b bs ih =>
    rw [writeRegs, ih]
    by_cases hk : j = k
    · subst hk
      simp
    · by_cases hlt : k < j
      · have e : j - k = (j - (k + 1)) + 1 := by omega
        simp only [e, List.length_cons, List.getElem_cons_succ]
        by_cases hb : j - (k + 1) < bs.length
        · rw [dif_pos ⟨by omega, hb⟩, dif_pos ⟨by omega, by omega⟩]
        · rw [dif_neg (by omega), dif_neg (by omega), Vector.getElem_setIfInBounds_ne hj (by omega)]
      · rw [dif_neg (by omega), dif_neg (by omega), Vector.getElem_setIfInBounds_ne hj (by omega)]

/-- V[j] after V[0] <- b[0], V[1] <- b[1], ... -/
theorem State.getV_setRegsFrom0 (s : State) (bs : List Byte) (j : Nibble) :
    (s.setRegsFrom0 bs).getV j = if h : j.toNat < bs.length then bs[j.toNat] else s.getV j := by
  have := getElem_writeRegs s.v 0 bs j.toNat j.isLt
  simpa [State.getV, State.setRegsFrom0] using this

/-! ## Decimal digits (R154) -/

@[simp] theorem length_decimalDigits (b : Byte) : (decimalDigits b).length = 3 := rfl

/-! ## The order of inputs that arrive together (spec/10_state.md R41) -/

/-- Inserting loses no input and adds none. -/
theorem insertInput_perm (e : Input) (fs : List Input) : (insertInput e fs).Perm (e :: fs) := by
  induction fs with
  | nil => exact .refl _
  | cons f fs ih =>
    unfold insertInput
    split
    · exact .refl _
    · exact (ih.cons f).trans (.swap e f fs)

/-- Inserting keeps the ranks rising. -/
theorem insertInput_pairwise (e : Input) {fs : List Input} (h : fs.Pairwise (fun a b => a.rank ≤ b.rank)) :
    (insertInput e fs).Pairwise (fun a b => a.rank ≤ b.rank) := by
  induction fs with
  | nil => exact List.pairwise_singleton _ _
  | cons f fs ih =>
    obtain ⟨hf, hfs⟩ := List.pairwise_cons.1 h
    unfold insertInput
    split
    · rename_i hle
      refine List.pairwise_cons.2 ⟨fun a ha => ?_, h⟩
      rcases List.mem_cons.1 ha with rfl | ha
      · exact hle
      · exact hle.trans (hf a ha)
    · rename_i hlt
      refine List.pairwise_cons.2 ⟨fun a ha => ?_, ih hfs⟩
      rcases List.mem_cons.1 ((insertInput_perm e fs).mem_iff.1 ha) with rfl | ha
      · exact Nat.le_of_lt (Nat.lt_of_not_le hlt)
      · exact hf a ha

/-- Inserting puts an input before those of its own rank and moves no others of one rank past each other. -/
theorem insertInput_filter (e : Input) (fs : List Input) (r : Nat) :
    (insertInput e fs).filter (fun a => a.rank == r) = (e :: fs).filter (fun a => a.rank == r) := by
  induction fs with
  | nil => rfl
  | cons f fs ih =>
    unfold insertInput
    split
    · rfl
    · rename_i hlt
      simp only [List.filter_cons, ih]
      by_cases he : e.rank = r <;> by_cases hf : f.rank = r <;> simp [he, hf]
      omega

/-! ## The draw of a random byte (spec/45_timers_keys_random.md R170) -/

@[simp] theorem Env.afterRnd_pending (e : Env) : e.afterRnd.pending = e.pending := by
  unfold Env.afterRnd; split <;> rfl

@[simp] theorem Env.afterRnd_keys (e : Env) : e.afterRnd.keys = e.keys := by
  unfold Env.afterRnd; split <;> rfl

@[simp] theorem Env.afterRnd_font (e : Env) : e.afterRnd.font = e.font := by
  unfold Env.afterRnd; split <;> rfl

/-- A byte already fixed is the one drawn. -/
theorem Env.nextRnd_of_supply {e : Env} {b : Byte} {bs : List Byte} (h : e.rndSupply = b :: bs) : e.nextRnd = b := by
  simp [Env.nextRnd, h]

/-- With none fixed, the byte drawn is the next free value. -/
theorem Env.nextRnd_of_nil {e : Env} (h : e.rndSupply = []) : e.nextRnd = Config.freeRnd e.rndDraws := by
  simp [Env.nextRnd, h]

end Sys2Proof.Machine
end

