-- ==== Sys2Proof/Laws/PerInstr.lean ====
section
/-!
SUPPORT. The family TableRow: the word of every instruction has the bits its row of spec/30_encoding.md R74 fixes.
-/

namespace Sys2Proof.Laws.TableRow

/-- The instruction's row of R74 is in the map, and its word matches the row's mask and match. -/
def Statement (i : Instr) : Prop := ∃ r ∈ opcodeMap, r.number = i.rowNumber ∧ r.matchesWord (encode i) = true

theorem cls (x : Nibble) : Statement (.cls x) :=
  ⟨⟨1, 0xF0FF, 0x00E0⟩, by decide, rfl, by simp [OpcodeRow.matchesWord, encode]; decide⟩

theorem ret (x : Nibble) : Statement (.ret x) :=
  ⟨⟨2, 0xF0FF, 0x00EE⟩, by decide, rfl, by simp [OpcodeRow.matchesWord, encode]; decide⟩

theorem jp (nnn : Addr12) : Statement (.jp nnn) :=
  ⟨⟨3, 0xF000, 0x1000⟩, by decide, rfl, by simp [OpcodeRow.matchesWord, encode]; decide⟩

theorem call (nnn : Addr12) : Statement (.call nnn) :=
  ⟨⟨4, 0xF000, 0x2000⟩, by decide, rfl, by simp [OpcodeRow.matchesWord, encode]; decide⟩

theorem seImm (x : Nibble) (kk : Byte) : Statement (.seImm x kk) :=
  ⟨⟨5, 0xF000, 0x3000⟩, by decide, rfl, by simp [OpcodeRow.matchesWord, encode]; decide⟩

theorem sneImm (x : Nibble) (kk : Byte) : Statement (.sneImm x kk) :=
  ⟨⟨6, 0xF000, 0x4000⟩, by decide, rfl, by simp [OpcodeRow.matchesWord, encode]; decide⟩

theorem seReg (x : Nibble) (y : Nibble) (n : Nibble) : Statement (.seReg x y n) :=
  ⟨⟨7, 0xF000, 0x5000⟩, by decide, rfl, by simp [OpcodeRow.matchesWord, encode]; decide⟩

theorem ldImm (x : Nibble) (kk : Byte) : Statement (.ldImm x kk) :=
  ⟨⟨8, 0xF000, 0x6000⟩, by decide, rfl, by simp [OpcodeRow.matchesWord, encode]; decide⟩

theorem addImm (x : Nibble) (kk : Byte) : Statement (.addImm x kk) :=
  ⟨⟨9, 0xF000, 0x7000⟩, by decide, rfl, by simp [OpcodeRow.matchesWord, encode]; decide⟩

theorem ldReg (x : Nibble) (y : Nibble) : Statement (.ldReg x y) :=
  ⟨⟨10, 0xF00F, 0x8000⟩, by decide, rfl, by simp [OpcodeRow.matchesWord, encode]; decide⟩

theorem orReg (x : Nibble) (y : Nibble) : Statement (.orReg x y) :=
  ⟨⟨11, 0xF00F, 0x8001⟩, by decide, rfl, by simp [OpcodeRow.matchesWord, encode]; decide⟩

theorem andReg (x : Nibble) (y : Nibble) : Statement (.andReg x y) :=
  ⟨⟨12, 0xF00F, 0x8002⟩, by decide, rfl, by simp [OpcodeRow.matchesWord, encode]; decide⟩

theorem xorReg (x : Nibble) (y : Nibble) : Statement (.xorReg x y) :=
  ⟨⟨13, 0xF00F, 0x8003⟩, by decide, rfl, by simp [OpcodeRow.matchesWord, encode]; decide⟩

theorem addReg (x : Nibble) (y : Nibble) : Statement (.addReg x y) :=
  ⟨⟨14, 0xF00F, 0x8004⟩, by decide, rfl, by simp [OpcodeRow.matchesWord, encode]; decide⟩

theorem subReg (x : Nibble) (y : Nibble) : Statement (.subReg x y) :=
  ⟨⟨15, 0xF00F, 0x8005⟩, by decide, rfl, by simp [OpcodeRow.matchesWord, encode]; decide⟩

theorem shr (x : Nibble) (y : Nibble) : Statement (.shr x y) :=
  ⟨⟨16, 0xF00F, 0x8006⟩, by decide, rfl, by simp [OpcodeRow.matchesWord, encode]; decide⟩

theorem subnReg (x : Nibble) (y : Nibble) : Statement (.subnReg x y) :=
  ⟨⟨17, 0xF00F, 0x8007⟩, by decide, rfl, by simp [OpcodeRow.matchesWord, encode]; decide⟩

theorem shl (x : Nibble) (y : Nibble) : Statement (.shl x y) :=
  ⟨⟨18, 0xF00F, 0x800E⟩, by decide, rfl, by simp [OpcodeRow.matchesWord, encode]; decide⟩

theorem sneReg (x : Nibble) (y : Nibble) (n : Nibble) : Statement (.sneReg x y n) :=
  ⟨⟨19, 0xF000, 0x9000⟩, by decide, rfl, by simp [OpcodeRow.matchesWord, encode]; decide⟩

theorem ldI (nnn : Addr12) : Statement (.ldI nnn) :=
  ⟨⟨20, 0xF000, 0xA000⟩, by decide, rfl, by simp [OpcodeRow.matchesWord, encode]; decide⟩

theorem jpV0 (nnn : Addr12) : Statement (.jpV0 nnn) :=
  ⟨⟨21, 0xF000, 0xB000⟩, by decide, rfl, by simp [OpcodeRow.matchesWord, encode]; decide⟩

theorem rnd (x : Nibble) (kk : Byte) : Statement (.rnd x kk) :=
  ⟨⟨22, 0xF000, 0xC000⟩, by decide, rfl, by simp [OpcodeRow.matchesWord, encode]; decide⟩

theorem drw (x : Nibble) (y : Nibble) (n : Nibble) : Statement (.drw x y n) :=
  ⟨⟨23, 0xF000, 0xD000⟩, by decide, rfl, by simp [OpcodeRow.matchesWord, encode]; decide⟩

theorem skp (x : Nibble) : Statement (.skp x) :=
  ⟨⟨24, 0xF0FF, 0xE09E⟩, by decide, rfl, by simp [OpcodeRow.matchesWord, encode]; decide⟩

theorem sknp (x : Nibble) : Statement (.sknp x) :=
  ⟨⟨25, 0xF0FF, 0xE0A1⟩, by decide, rfl, by simp [OpcodeRow.matchesWord, encode]; decide⟩

theorem ldVxDt (x : Nibble) : Statement (.ldVxDt x) :=
  ⟨⟨26, 0xF0FF, 0xF007⟩, by decide, rfl, by simp [OpcodeRow.matchesWord, encode]; decide⟩

theorem ldVxK (x : Nibble) : Statement (.ldVxK x) :=
  ⟨⟨27, 0xF0FF, 0xF00A⟩, by decide, rfl, by simp [OpcodeRow.matchesWord, encode]; decide⟩

theorem ldDtVx (x : Nibble) : Statement (.ldDtVx x) :=
  ⟨⟨28, 0xF0FF, 0xF015⟩, by decide, rfl, by simp [OpcodeRow.matchesWord, encode]; decide⟩

theorem ldStVx (x : Nibble) : Statement (.ldStVx x) :=
  ⟨⟨29, 0xF0FF, 0xF018⟩, by decide, rfl, by simp [OpcodeRow.matchesWord, encode]; decide⟩

theorem addI (x : Nibble) : Statement (.addI x) :=
  ⟨⟨30, 0xF0FF, 0xF01E⟩, by decide, rfl, by simp [OpcodeRow.matchesWord, encode]; decide⟩

theorem ldF (x : Nibble) : Statement (.ldF x) :=
  ⟨⟨31, 0xF0FF, 0xF029⟩, by decide, rfl, by simp [OpcodeRow.matchesWord, encode]; decide⟩

theorem ldB (x : Nibble) : Statement (.ldB x) :=
  ⟨⟨32, 0xF0FF, 0xF033⟩, by decide, rfl, by simp [OpcodeRow.matchesWord, encode]; decide⟩

theorem storeRegs (x : Nibble) : Statement (.storeRegs x) :=
  ⟨⟨33, 0xF0FF, 0xF055⟩, by decide, rfl, by simp [OpcodeRow.matchesWord, encode]; decide⟩

theorem loadRegs (x : Nibble) : Statement (.loadRegs x) :=
  ⟨⟨34, 0xF0FF, 0xF065⟩, by decide, rfl, by simp [OpcodeRow.matchesWord, encode]; decide⟩

end Sys2Proof.Laws.TableRow
end

