-- ==== Sys2Proof/Machine/Pins.lean ====
section
/-!
DEFINITION. The recommended signal-level realisation of spec/10_state.md R42, over the events: which inputs the signals of
one clock cycle bring, and what the output signals show. No rule depends on it (R42, D3; log 35).
-/

namespace Sys2Proof.Machine

/-- The input signals in one clock cycle (R42). -/
structure InPins where
  /-- rst_n: PowerOnReset while low. -/
  rstN : Bool
  /-- step: one Step per cycle it is high. -/
  step : Bool
  /-- tick: one Tick per cycle it is high. -/
  tick : Bool
  /-- key_evt_valid: a KeyPress in this cycle. -/
  keyEvtValid : Bool
  /-- key_evt_code[3:0]. -/
  keyEvtCode : Nibble
  /-- keys[15:0]. -/
  keys : BitVec 16
  /-- rnd[7:0]. -/
  rnd : Byte
  /-- halt. -/
  halt : Bool
  /-- The image whose delivery the loader handshake completes in this cycle, one Load. -/
  loaded : Option (List Byte)
  deriving DecidableEq, Repr

/-- The events of one cycle, the levels of the key pins first. -/
def InPins.inputs (p : InPins) : List Input :=
  [.keyLevels p.keys] ++ (if p.rstN then [] else [.powerOnReset]) ++
    (match p.loaded with
      | some image => [.load image]
      | none => []) ++
    (if p.halt then [.halt] else []) ++ (if p.step then [.step] else []) ++
    (if p.keyEvtValid then [.keyPress p.keyEvtCode] else []) ++ (if p.tick then [.tick] else [])

/-- The state at the start of the cycle: the events join the pending ones in the order of R41, and an RND of the cycle
takes rnd[7:0]. -/
def State.onCycle (s : State) (p : InPins) : State :=
  (s.setEnv { s.env with rndSupply := [p.rnd] }).arrive p.inputs

/-- The output signals (R42); disp_px answers the pixel that disp_x and disp_y select. -/
structure OutPins where
  dispPx : Bool
  soundOn : Bool
  status : Word
  faultPc : Word
  diagValid : Bool
  diagPc : Word
  diagWord : Word
  deriving DecidableEq, Repr

/-- What the output signals show between events (R41), `emitted` being the diagnostic of the last Step, if any. -/
def State.outPins (s : State) (dispX : BitVec 6) (dispY : BitVec 5) (emitted : Option Diag) : OutPins where
  dispPx := s.pixel ⟨dispY.toNat, dispY.isLt⟩ ⟨dispX.toNat, dispX.isLt⟩
  soundOn := s.soundOn
  status := s.status
  faultPc := s.faultPc
  diagValid := emitted.isSome
  diagPc := match emitted with
    | some d => d.pc
    | none => 0
  diagWord := match emitted with
    | some d => d.word
    | none => 0

end Sys2Proof.Machine
end

