-- ==== Sys2Proof/Tests/Slice0.lean ====
section
/-!
SUPPORT. The model's own tests and the witnesses of the obligations' hypotheses. Expected values come from
spec/95_test_vectors.md (the id is in the comment) or from the spec's rule, worked out by hand.
-/

namespace Sys2Proof.Tests

set_option Elab.async false

open Sys2Proof.Machine

/-! ## Helpers -/

/-- Running at 0x0200 with the reset values. -/
def base : State := State.reset.setRun .running

/-- Running at 0x0300. -/
def at300 : State := base.setPc 0x0300

/-- The word `w` at PC takes one step to a next state in which `p` holds. -/
def runs (w : Nat) (s : State) (p : State → Bool) : Bool :=
  match step (s.withFetchWord 16 w) with
  | .next t => p t
  | .fault _ | .refused _ => false

/-- The state with these inputs pending. -/
def State.coming (s : State) (es : List Input) : State := s.setEnv { s.env with pending := es }

/-- So many steps go on to a state in which `p` holds. -/
def after : Nat → State → (State → Bool) → Bool
  | 0, s, p => p s
  | k + 1, s, p =>
    match step s with
    | .next t => after k t p
    | .fault _ | .refused _ => false

/-- Exactly these columns of a row are set. -/
def rowIs (t : State) (r : Fin 32) (cols : List (Fin 64)) : Bool :=
  (List.finRange 64).all (fun c => t.pixel r c == cols.contains c)

/-- The stack with `k` active entries, entry j holding 0x0200 + 2 * j. -/
def withStack (s : State) (k : Fin 17) : State :=
  { s with sp := k, stack := Vector.ofFn (fun j : Fin 16 => BitVec.ofNat 16 (0x0200 + 2 * j.val)) }

/-- V[k] = b + k for every k. -/
def withRegs (s : State) (b : Byte) : State :=
  { s with v := Vector.ofFn (fun k : Fin 16 => b + BitVec.ofNat 8 k.val) }

/-! ## Well-formedness: one ill-formed term for each check -/

theorem test_assembled_accepts : (Instr.shr 1 0).assembled = true := by decide
theorem test_assembled_refuses_cls : (Instr.cls 1).assembled = false := by decide
theorem test_assembled_refuses_ret : (Instr.ret 1).assembled = false := by decide
theorem test_assembled_refuses_shr : (Instr.shr 1 2).assembled = false := by decide
theorem test_assembled_refuses_shl : (Instr.shl 1 2).assembled = false := by decide

theorem test_image_of_3584_fits : imageFits (List.replicate 3584 0) = true := by
  rw [imageFits_iff, List.length_replicate]

theorem test_image_of_3585_does_not : ¬ imageFits (List.replicate 3585 0) = true := by
  rw [imageFits_iff, List.length_replicate]; decide

theorem test_default_font_is_well_formed : defaultFont.wellFormed = true := by decide +kernel
theorem test_font_too_high : Font.wellFormed { defaultFont with base := 0x1B1 } = false := by decide +kernel
theorem test_font_too_short : Font.wellFormed { defaultFont with data := defaultFontData.tail } = false := by
  decide +kernel
theorem test_font_with_a_low_bit : Font.wellFormed { defaultFont with data := 0xF1 :: defaultFontData.tail } = false := by
  decide +kernel

/-! ## Decoding: every constructor, from words written out from R74 -/

/-- 0000 x 1110 0000 and 0000 x 1110 1110. -/
theorem test_decode_family0 : decode [0x00, 0xE0] = .ok (.cls 0x0, []) ∧ decode [0x0F, 0xEE] = .ok (.ret 0xF, []) := by
  decide

/-- 0001 nnn, 0010 nnn, 1010 nnn, 1011 nnn. -/
theorem test_decode_addresses : decode [0x12, 0x34] = .ok (.jp 0x234, []) ∧ decode [0x2F, 0xED] = .ok (.call 0xFED, []) ∧
    decode [0xA3, 0x01] = .ok (.ldI 0x301, []) ∧ decode [0xBF, 0xFF] = .ok (.jpV0 0xFFF, []) := by decide

/-- 0011, 0100, 0110, 0111 and 1100, each with x kk. -/
theorem test_decode_immediates : decode [0x31, 0x04] = .ok (.seImm 1 0x04, []) ∧
    decode [0x4A, 0xFE] = .ok (.sneImm 0xA 0xFE, []) ∧ decode [0x60, 0x2A] = .ok (.ldImm 0 0x2A, []) ∧
    decode [0x7F, 0x80] = .ok (.addImm 0xF 0x80, []) ∧ decode [0xC3, 0x0F] = .ok (.rnd 3 0x0F, []) := by decide

/-- 0101, 1001 and 1101, each with x y n. -/
theorem test_decode_three_nibbles : decode [0x52, 0x31] = .ok (.seReg 2 3 1, []) ∧
    decode [0x92, 0x35] = .ok (.sneReg 2 3 5, []) ∧ decode [0xD1, 0x23] = .ok (.drw 1 2 3, []) := by decide

/-- 1000 x y n, n = 0 to 7 and 0xE. -/
theorem test_decode_family8 : decode [0x81, 0x20] = .ok (.ldReg 1 2, []) ∧ decode [0x81, 0x21] = .ok (.orReg 1 2, []) ∧
    decode [0x81, 0x22] = .ok (.andReg 1 2, []) ∧ decode [0x81, 0x23] = .ok (.xorReg 1 2, []) ∧
    decode [0x81, 0x24] = .ok (.addReg 1 2, []) ∧ decode [0x81, 0x25] = .ok (.subReg 1 2, []) ∧
    decode [0x81, 0x26] = .ok (.shr 1 2, []) ∧ decode [0x81, 0x27] = .ok (.subnReg 1 2, []) ∧
    decode [0x81, 0x2E] = .ok (.shl 1 2, []) := by decide

/-- 1110 x kk. -/
theorem test_decode_familyE : decode [0xE1, 0x9E] = .ok (.skp 1, []) ∧ decode [0xE1, 0xA1] = .ok (.sknp 1, []) := by decide

/-- 1111 x kk. -/
theorem test_decode_familyF : decode [0xF4, 0x07] = .ok (.ldVxDt 4, []) ∧ decode [0xF5, 0x0A] = .ok (.ldVxK 5, []) ∧
    decode [0xF0, 0x15] = .ok (.ldDtVx 0, []) ∧ decode [0xF2, 0x18] = .ok (.ldStVx 2, []) ∧
    decode [0xF2, 0x1E] = .ok (.addI 2, []) ∧ decode [0xF1, 0x29] = .ok (.ldF 1, []) ∧
    decode [0xF1, 0x33] = .ok (.ldB 1, []) ∧ decode [0xFF, 0x55] = .ok (.storeRegs 0xF, []) ∧
    decode [0xF2, 0x65] = .ok (.loadRegs 2, []) := by decide

/-- One word of each line of R75, by name; one byte is no instruction (R77). -/
theorem test_decode_refuses : decode [0x00, 0x00] = .error (.unknownFamily0 0x0000) ∧
    decode [0x80, 0x08] = .error (.unknownFamily8 0x8008) ∧ decode [0x8F, 0xFF] = .error (.unknownFamily8 0x8FFF) ∧
    decode [0xE0, 0xFF] = .error (.unknownFamilyE 0xE0FF) ∧ decode [0xF0, 0xFF] = .error (.unknownFamilyF 0xF0FF) ∧
    decode [0x12] = .error .truncated := by decide

/-- The opcode table's numbering. -/
theorem test_decode_table_word : decodeTableWord 16 0xD123 = some (.drw 1 2 3) ∧ decodeTableWord 16 0xF0FF = none := by
  decide

/-- Spellings of R78. -/
theorem test_disassemble : disassemble (.drw 1 2 10) = "DRW V1, V2, 10" ∧ disassemble (.storeRegs 0xF) = "LD [I], VF" ∧
    disassemble (.jpV0 0x2A6) = "JP V0, 0x2A6" ∧ disassemble (.ldImm 0 0x05) = "LD V0, 0x05" := by decide +kernel

/-- Lines as the source and the spec's programs write them (R78, programs P2 and P6), and three that are no instruction:
a number wider than its field, a lower-case register, an operand too many. -/
theorem test_assemble : assemble "LD V0,0x05".toList = some (.ldImm 0 5) ∧
    assemble "DRW VA, VB, 5".toList = some (.drw 0xA 0xB 5) ∧ assemble "LD V2, [I]".toList = some (.loadRegs 2) ∧
    assemble "JP V0, 0x300".toList = some (.jpV0 0x300) ∧ assemble "SHR V1".toList = some (.shr 1 0) ∧
    assemble "LD V0, 0x100".toList = none ∧ assemble "LD Va, V0".toList = none ∧ assemble "CLS V0".toList = none := by
  decide +kernel

/-! ## Fetch -/

/-- V-ENC-8: an odd PC. -/
theorem test_fetch_odd : runs 0x602A (base.setPc 0x0201) (fun t => t.getV 0 == 0x2A && t.pc == 0x0203) = true := by
  decide +kernel

/-- V-ENC-10: the word at 0xFFFF has its second byte at address 0x000. -/
theorem test_fetch_wraps : runs 0x63F0 (base.setPc 0xFFFF)
    (fun t => t.getV 3 == 0xF0 && t.pc == 0x0001 && t.readByte 0x0FFF == 0x63 && t.readByte 0 == 0xF0) = true := by
  decide +kernel

/-- V-ENC-9: PC = 0x10FE fetches from 0x0FE and 0x0FF. -/
theorem test_fetch_above_memory : after 1 ((base.setPc 0x10FE).writeBytes 0x00FE [0x61, 0x11])
    (fun t => t.getV 1 == 0x11 && t.pc == 0x1100) = true := by decide +kernel

/-- V-CYC-7: two unknown words, two diagnostics, in order. -/
theorem test_unknown_words : after 2 (at300.writeBytes 0x0300 [0xF0, 0xFF, 0xF0, 0x00])
    (fun t => t.pc == 0x0304 && t.diags == [⟨0x0300, 0xF0FF⟩, ⟨0x0302, 0xF000⟩]) = true := by decide +kernel

/-- V-CYC-5. -/
theorem test_unknown_keeps_VF : runs 0x8008 (base.setV 0xF 0x5A)
    (fun t => t.pc == 0x0202 && t.diags == [⟨0x0200, 0x8008⟩] && t.getV 0xF == 0x5A) = true := by decide +kernel

/-! ## Display -/

/-- V-DSP-1. -/
theorem test_cls : runs 0x00E0 (base.setDisp ((Display.clear.flip 4 3).flip 31 63))
    (fun t => t.disp == Display.clear && t.pc == 0x0202) = true := by decide +kernel

/-- V-DSP-3: columns wrap. -/
theorem test_drw_wraps_columns : runs 0xD011 (((base.setI 0x0300).writeBytes 0x0300 [0xFF]).setV 0 62)
    (fun t => rowIs t 0 [62, 63, 0, 1, 2, 3, 4, 5] && t.getV 0xF == 0) = true := by decide +kernel

/-- V-DSP-6, second draw: 0x18 over 0xF0. -/
theorem test_drw_collides : runs 0xD011 (((base.setI 0x0301).writeBytes 0x0301 [0x18]).setDisp (Display.clear.set 0 0xF))
    (fun t => rowIs t 0 [0, 1, 2, 4] && t.getV 0xF == 1) = true := by decide +kernel

/-! ## Control transfer -/

/-- V-CF-5; x is not examined (V-ENC-4). -/
theorem test_ret : runs 0x0FEE ((withStack base 1).setPc 0x0214)
    (fun t => t.pc == 0x0200 && t.sp == 0 && t.stack[0] == 0x0200) = true := by decide +kernel

/-- V-CF-9. -/
theorem test_ret_underflow : runs 0x00EE base (fun t => t.run == .halted .stackUnderflow && t.faultCause == 2 &&
    t.faultPc == 0x0200 && t.pc == 0x0200 && t.sp == 0) = true := by decide +kernel

/-- V-CF-1, V-CF-2. -/
theorem test_jp : runs 0x1FFF base (fun t => t.pc == 0x0FFF) = true := by decide +kernel

/-- V-CF-7: the sixteenth nested call. -/
theorem test_call : runs 0x2400 (withStack at300 15)
    (fun t => t.sp == 16 && t.stack[15] == 0x0302 && t.pc == 0x0400) = true := by decide +kernel

/-- V-CF-8, V-EVT-6: the seventeenth. -/
theorem test_call_overflow : runs 0x2400 (withStack at300 16) (fun t => t.run == .halted .stackOverflow &&
    t.faultPc == 0x0300 && t.pc == 0x0300 && t.sp == 16 && t.stack[15] == 0x021E && t.status == 0x0043) = true := by
  decide +kernel

/-- V-CF-11, V-CF-15. -/
theorem test_se_imm : runs 0x3122 ((base.setV 1 0x22).setPc 0xFFFC) (fun t => t.pc == 0x0000) = true := by decide +kernel
theorem test_se_imm_differs : runs 0x3105 (at300.setV 1 0x04) (fun t => t.pc == 0x0302) = true := by decide +kernel

/-- V-CF-12. -/
theorem test_sne_imm : runs 0x4104 (at300.setV 1 0x03) (fun t => t.pc == 0x0304) = true := by decide +kernel
theorem test_sne_imm_equal : runs 0x4103 (at300.setV 1 0x03) (fun t => t.pc == 0x0302) = true := by decide +kernel

/-- V-ENC-5, V-CF-16. -/
theorem test_se_reg : runs 0x5231 ((base.setV 2 7).setV 3 7) (fun t => t.pc == 0x0204) = true := by decide +kernel
theorem test_se_reg_differs : runs 0x5230 ((base.setV 2 0x10).setV 3 0x11) (fun t => t.pc == 0x0202) = true := by
  decide +kernel

/-- V-ENC-6, V-CF-18. -/
theorem test_sne_reg : runs 0x9235 ((base.setV 2 7).setV 3 8) (fun t => t.pc == 0x0204) = true := by decide +kernel
theorem test_sne_reg_same : runs 0x9550 at300 (fun t => t.pc == 0x0302) = true := by decide +kernel

/-- V-CF-13. -/
theorem test_jp_v0 : runs 0xBFFF (base.setV 0 0xFF) (fun t => t.pc == 0x10FE) = true := by decide +kernel

/-! ## Arithmetic, logic, shifts -/

/-- V-ALU-2. -/
theorem test_ld_imm : runs 0x6FFF (base.setV 0xF 0x33) (fun t => t.getV 0xF == 0xFF) = true := by decide +kernel

/-- V-ALU-3. -/
theorem test_add_imm : runs 0x7101 ((base.setV 1 0xFF).setV 0xF 0x5A)
    (fun t => t.getV 1 == 0 && t.getV 0xF == 0x5A) = true := by decide +kernel

/-- V-ALU-6. -/
theorem test_ld_reg : runs 0x8120 ((base.setV 2 0x33).setV 0xF 0x5A)
    (fun t => t.getV 1 == 0x33 && t.getV 0xF == 0x5A) = true := by decide +kernel

/-- V-ALU-7a. -/
theorem test_or : runs 0x8121 ((base.setV 1 0xF0).setV 2 0x3C) (fun t => t.getV 1 == 0xFC) = true := by decide +kernel
theorem test_and : runs 0x8122 ((base.setV 1 0xF0).setV 2 0x3C) (fun t => t.getV 1 == 0x30) = true := by decide +kernel
theorem test_xor : runs 0x8123 ((base.setV 1 0xF0).setV 2 0x3C) (fun t => t.getV 1 == 0xCC) = true := by decide +kernel

/-- V-ALU-10. -/
theorem test_add : runs 0x8014 ((base.setV 0 0xFF).setV 1 1) (fun t => t.getV 0 == 0 && t.getV 0xF == 1) = true := by
  decide +kernel

/-- V-ALU-15: the flag survives. -/
theorem test_add_into_VF : runs 0x8F14 ((base.setV 0xF 0xFF).setV 1 1) (fun t => t.getV 0xF == 1) = true := by
  decide +kernel

/-- V-ALU-17, V-ALU-18. -/
theorem test_sub : runs 0x8125 ((base.setV 1 3).setV 2 5) (fun t => t.getV 1 == 0xFE && t.getV 0xF == 0) = true := by
  decide +kernel
theorem test_sub_equal : runs 0x8125 ((base.setV 1 4).setV 2 4) (fun t => t.getV 1 == 0 && t.getV 0xF == 0) = true := by
  decide +kernel

/-- V-ENC-7 and V-ALU-29. -/
theorem test_shr_ignores_y : runs 0x8126 ((base.setV 1 4).setV 2 0xFF)
    (fun t => t.getV 1 == 2 && t.getV 0xF == 0 && t.getV 2 == 0xFF) = true := by decide +kernel
theorem test_shr : runs 0x8106 (base.setV 1 0xFF) (fun t => t.getV 1 == 0x7F && t.getV 0xF == 1) = true := by
  decide +kernel

/-- V-ALU-22, V-ALU-25. -/
theorem test_subn : runs 0x8127 ((base.setV 1 3).setV 2 5) (fun t => t.getV 1 == 2 && t.getV 0xF == 1) = true := by
  decide +kernel
theorem test_subn_into_VF : runs 0x8F17 ((base.setV 0xF 3).setV 1 5) (fun t => t.getV 0xF == 1) = true := by decide +kernel

/-- V-ALU-31, V-ALU-36. -/
theorem test_shl : runs 0x810E (base.setV 1 0x81) (fun t => t.getV 1 == 2 && t.getV 0xF == 1) = true := by decide +kernel
theorem test_shl_ignores_y : runs 0x812E ((base.setV 1 4).setV 2 0x81)
    (fun t => t.getV 1 == 8 && t.getV 0xF == 0 && t.getV 2 == 0x81) = true := by decide +kernel

/-! ## Index register and memory transfer -/

/-- V-IDX-2. -/
theorem test_ld_i : runs 0xA123 (base.setI 0x1000) (fun t => t.i == 0x0123) = true := by decide +kernel

/-- V-IDX-3, V-IDX-4. -/
theorem test_add_i : runs 0xF11E (((base.setI 0x0FFF).setV 1 1).setV 0xF 0x5A)
    (fun t => t.i == 0x1000 && t.getV 0xF == 0x5A) = true := by decide +kernel
theorem test_add_i_wraps : runs 0xF11E ((base.setI 0xFFFF).setV 1 2) (fun t => t.i == 0x0001) = true := by decide +kernel

/-- V-IDX-6, V-IDX-7. -/
theorem test_ld_f_low_nibble : runs 0xF129 (base.setV 1 0x1A) (fun t => t.i == 0x0032) = true := by decide +kernel
theorem test_ld_f_base : runs 0xF129
    ((base.setV 1 2).setEnv { base.env with font := { defaultFont with base := 0x050 } })
    (fun t => t.i == 0x005A) = true := by decide +kernel

/-- V-IDX-10, V-IDX-11. -/
theorem test_ld_b : runs 0xF133 ((base.setI 0x0300).setV 1 156)
    (fun t => t.readBytes 0x0300 3 == [1, 5, 6] && t.i == 0x0300) = true := by decide +kernel
theorem test_ld_b_wraps : runs 0xF133 ((base.setI 0x0FFE).setV 1 123)
    (fun t => t.readByte 0x0FFE == 1 && t.readByte 0x0FFF == 2 && t.readByte 0 == 3) = true := by decide +kernel

/-- V-IDX-12, V-IDX-13. -/
theorem test_store_regs : runs 0xF155 (((base.setI 0x0300).setV 1 0x22).setV 2 0x33)
    (fun t => t.readBytes 0x0300 3 == [0, 0x22, 0] && t.i == 0x0300) = true := by decide +kernel
theorem test_store_all_regs : runs 0xFF55 (withRegs (base.setI 0x0300) 0x10)
    (fun t => t.readByte 0x0300 == 0x10 && t.readByte 0x030F == 0x1F && t.readByte 0x0310 == 0) = true := by
  decide +kernel

/-- V-IDX-15, V-IDX-17. -/
theorem test_load_regs : runs 0xF265 (((base.setI 0x0300).writeBytes 0x0300 [1, 5, 6]).setV 3 0x44)
    (fun t => t.getV 0 == 1 && t.getV 1 == 5 && t.getV 2 == 6 && t.getV 3 == 0x44) = true := by decide +kernel
theorem test_load_font_byte : runs 0xF065 base (fun t => t.getV 0 == 0xF0 && t.i == 0) = true := by decide +kernel

/-! ## Random, keys, timers -/

/-- V-TKR-1: a byte already fixed; it is used up. -/
theorem test_rnd : runs 0xC30F (base.setEnv { base.env with rndSupply := [0xAB, 0x01] })
    (fun t => t.getV 3 == 0x0B && t.env.rndSupply == [0x01]) = true := by decide +kernel

/-- V-TKR-2: any draw; the counter moves on. -/
theorem test_rnd_masked : runs 0xC300 base (fun t => t.env.rndDraws == 1) = true := by decide +kernel

/-- V-TKR-6, V-TKR-4. -/
theorem test_skp : runs 0xE19E (setKeyLevels 0x0008 (at300.setV 1 0x13)) (fun t => t.pc == 0x0304) = true := by
  decide +kernel
theorem test_skp_up : runs 0xE19E (setKeyLevels 0xFFF7 (at300.setV 1 0x03)) (fun t => t.pc == 0x0302) = true := by
  decide +kernel

/-- V-TKR-5. -/
theorem test_sknp : runs 0xE1A1 (setKeyLevels 0xFFF7 (at300.setV 1 0x03)) (fun t => t.pc == 0x0304) = true := by
  decide +kernel
theorem test_sknp_down : runs 0xE1A1 (setKeyLevels 0x0008 (at300.setV 1 0x03)) (fun t => t.pc == 0x0302) = true := by
  decide +kernel

/-- V-TKR-7. -/
theorem test_ld_vx_dt : runs 0xF407 (base.setDt 0x3C) (fun t => t.getV 4 == 0x3C && t.dt == 0x3C) = true := by
  decide +kernel

/-- V-TKR-11. -/
theorem test_key_wait : runs 0xF50A (at300.setV 5 0x77)
    (fun t => t.run == .awaitingKey 5 && t.pc == 0x0300 && t.getV 5 == 0x77) = true := by decide +kernel

/-- V-TKR-8. -/
theorem test_ld_dt : runs 0xF015 (base.setV 0 0x3C) (fun t => t.dt == 0x3C && t.st == 0) = true := by decide +kernel

/-- V-TKR-9. -/
theorem test_ld_st : runs 0xF218 (base.setV 2 5) (fun t => t.st == 5 && t.dt == 0 && t.soundOn) = true := by
  decide +kernel

/-! ## Events -/

/-- V-TKR-15: two presses at once; the lower key completes the wait, the other is dropped. -/
theorem test_two_key_presses : after 2 ((at300.setRun (.awaitingKey 5)).arrive [.keyPress 7, .keyPress 2])
    (fun t => t.getV 5 == 2 && t.pc == 0x0302 && t.run == .running && t.env.pending == []) = true := by decide +kernel

/-- V-TKR-12 and V-TKR-14: steps during the wait do nothing. -/
theorem test_step_while_waiting : after 2 (setKeyLevels 0x0010 (at300.setRun (.awaitingKey 5)))
    (fun t => t.run == .awaitingKey 5 && t.pc == 0x0300) = true := by decide +kernel

/-- V-TKR-18. -/
theorem test_tick : after 1 (State.coming ((base.setDt 2).setSt 1) [.tick])
    (fun t => t.dt == 1 && t.st == 0 && !t.soundOn && t.pc == 0x0200) = true := by decide +kernel

/-- V-TKR-21. -/
theorem test_tick_halted : after 1 (State.coming (((base.setDt 3).setSt 3).setRun (.halted .stackOverflow)) [.tick])
    (fun t => t.dt == 3 && t.st == 3 && !t.soundOn) = true := by decide +kernel

/-- V-TKR-22: Step before Tick. -/
theorem test_step_before_tick : after 2 (((base.setDt 5).writeBytes 0x0200 [0xF0, 0x07]).arrive [.tick, .step])
    (fun t => t.getV 0 == 5 && t.dt == 4) = true := by decide +kernel

/-- V-EVT-1. -/
theorem test_halt : after 1 (State.coming (base.setPc 0x0340) [.halt]) (fun t => t.run == .halted .externalHalt &&
    t.faultCause == 4 && t.faultPc == 0x0340 && t.status == 0x0103) = true := by decide +kernel

/-- V-EVT-2: the wait is cancelled, and nothing happens after it. -/
theorem test_halt_cancels_the_wait : after 3
    (State.coming ((base.setDt 2).setRun (.awaitingKey 3)) [.halt, .keyPress 2, .tick])
    (fun t => t.run == .halted .externalHalt && t.faultPc == 0x0200 && t.getV 3 == 0 && t.dt == 2) = true := by
  decide +kernel

/-- V-EVT-4: Halt before Step. -/
theorem test_halt_before_step : after 2 ((base.writeBytes 0x0200 [0x60, 0x05]).arrive [.step, .halt])
    (fun t => t.run == .halted .externalHalt && t.getV 0 == 0 && t.pc == 0x0200) = true := by decide +kernel

/-- R42, R41: in one cycle with step, tick and a key press, an RND takes rnd[7:0] and the Tick comes after it. -/
theorem test_cycle : after 4 (((base.setDt 5).writeBytes 0x0200 [0xC3, 0x0F]).onCycle
      { rstN := true, step := true, tick := true, keyEvtValid := true, keyEvtCode := 3, keys := 0x0008, rnd := 0xAB,
        halt := false, loaded := none })
    (fun t => t.getV 3 == 0x0B && t.dt == 4 && t.pc == 0x0202 && t.env.keys == 0x0008 && t.env.pending == [] &&
      (t.outPins 0 0 none).status == 0x0001) = true := by decide +kernel

/-- V-EVT-5, V-EVT-7, V-RST-1. -/
theorem test_status : (base.setRun (.awaitingKey 5)).status = 0x0016 ∧ base.status = 0x0001 ∧
    State.reset.status = 0x0000 := by decide

/-- V-RST-1: PowerOnReset with the default font gives the reset state. -/
theorem test_power_on : powerOnReset (((base.setI 5).setV 1 0x77).setDt 3) = State.reset := by
  have h : Memory.initial State.reset.env.font = [] := Memory.initial_defaultFont
  simp [powerOnReset, State.init, State.setRun, State.reset, base, State.setI, State.setV, State.setDt] at h ⊢
  exact ⟨h, rfl⟩

/-- V-RST-2: Idle ignores Step, Tick, KeyPress and Halt. -/
theorem test_idle : after 4 (State.coming State.reset [.step, .tick, .keyPress 1, .halt])
    (fun t => decide (t = State.reset)) = true := by decide +kernel

/-- V-RST-3, V-RST-7. -/
theorem test_load : after 1 (State.coming ((base.setV 1 0x77).setRun (.halted .stackUnderflow)) [.load [0x12, 0x00]])
    (fun t => t.run == .running && t.pc == 0x0200 && t.readBytes 0x01FF 4 == [0, 0x12, 0, 0] && t.getV 1 == 0) = true := by
  decide +kernel

/-- V-RST-6: an empty image. -/
theorem test_load_nothing : after 2 (State.coming State.reset [.load []])
    (fun t => t.pc == 0x0202 && t.diags == [⟨0x0200, 0x0000⟩]) = true := by decide +kernel

/-- V-RST-5, for every image that does not fit. -/
theorem test_load_too_large (image : List Byte) (h : ¬ imageFits image = true) :
    (loadImage image base).run = .halted .programTooLarge ∧ (loadImage image base).status = 0x00C3 ∧
      (loadImage image base).faultPc = 0x0200 := by
  rw [loadImage, if_neg h]
  exact ⟨rfl, rfl, rfl⟩

/-- A cell written with its reset contents is not listed, so equal memories are equal data. -/
theorem test_memory_canonical : (base.writeBytes 0x0300 [1]).mem = [(0x300, 1)] ∧
    ((base.writeBytes 0x0300 [1]).writeBytes 0x0300 [0]).mem = [] ∧ (base.writeBytes 0x0000 [0xF0]).mem = [] ∧
    Memory.wf [(2, 1), (1, 1)] = false ∧ Memory.wf [(0x300, 0)] = false := by decide +kernel

/-! ## Witnesses: states and operands that meet the hypotheses of the obligations, each clause at its boundaries -/

theorem witness_EncodingTheDecodingGivesTheWord : decodeWord 0x5237 = .ok (.seReg 2 3 7) ∧
    decodeWord 0x00E0 = .ok (.cls 0) ∧ decodeWord 0xFF65 = .ok (.loadRegs 0xF) := by decide

/-- Both sides of the equivalence, at the neighbours of known words. -/
theorem witness_UnknownWordsAreExactlyTheListedOnes : (∃ e, decodeWord 0x00E1 = .error e) ∧
    (∃ e, decodeWord 0x800D = .error e) ∧ (∃ e, decodeWord 0x800F = .error e) ∧ (∃ e, decodeWord 0xE09F = .error e) ∧
    (∃ e, decodeWord 0xF066 = .error e) ∧ ¬ ∃ e, decodeWord 0x800E = .error e :=
  ⟨⟨_, rfl⟩, ⟨_, rfl⟩, ⟨_, rfl⟩, ⟨_, rfl⟩, ⟨_, rfl⟩, fun h => by
    obtain ⟨e, he⟩ := h
    have : decodeWord 0x800E = .ok (.shl 0 0) := by decide
    rw [this] at he; cases he⟩

/-- JP 0x234 at 0x0200. -/
def atJp : State := base.writeBytes 0x0200 [0x12, 0x34]

theorem witness_StepRunsTheDecodedInstruction : atJp.nextInput = .step ∧ atJp.run = .running ∧
    decodeWord (wordOfBytes (atJp.readByte atJp.pc) (atJp.readByte (atJp.pc + 1))) = .ok (.jp 0x234) := by
  decide +kernel

theorem witness_StepOutsideRunningDoesNothing : State.reset.nextInput = .step ∧ State.reset.run ≠ .running ∧
    (base.setRun (.awaitingKey 5)).nextInput = .step ∧ (base.setRun (.awaitingKey 5)).run ≠ .running ∧
    (base.setRun (.halted .stackOverflow)).run ≠ .running := by decide +kernel

theorem witness_UnknownWordAdvancesAndIsReportedOnce : base.nextInput = .step ∧ base.run = .running ∧
    decodeWord base.fetchWord = .error (.unknownFamily0 0x0000) := by decide +kernel

/-- A plain instruction, a redirecting one, and CALL and RET at the ends of the stack. -/
theorem witness_PcAfterEveryInstruction : (∃ t, exec (.cls 0) base = .next t) ∧ (Instr.cls 0).redirects = false ∧
    (∃ t, exec (.call 0x210) (withStack base 15) = .next t) ∧ (withStack base 15).sp.val < 16 ∧
    (∃ t, exec (.ret 0) (withStack base 1) = .next t) ∧ (withStack base 1).sp.val ≠ 0 ∧
    (∃ t, exec (.ldVxK 5) base = .next t) :=
  ⟨⟨_, rfl⟩, rfl, ⟨_, rfl⟩, by decide, ⟨_, rfl⟩, by decide, ⟨_, rfl⟩⟩

/-- The two clauses on VF: a draw over a set pixel, and a draw over a clear display. -/
theorem witness_DrwFlipsExactlyTheSpritePixels :
    (∃ t, exec (.drw 0 0 1) (base.setDisp (Display.clear.set 0 0xF)) = .next t ∧
      (base.setDisp (Display.clear.set 0 0xF)).pixel 0 0 = true ∧ t.pixel 0 0 = false) ∧
    (∃ t, exec (.drw 0 0 1) base = .next t ∧ ∀ p q, base.pixel p q = true → t.pixel p q = true) :=
  ⟨⟨_, rfl, by decide +kernel⟩, ⟨_, rfl, by decide +kernel⟩⟩

theorem witness_DrwTwiceRestoresTheDisplay : (0 : Nibble) ≠ 0xF ∧ (0xE : Nibble) ≠ 0xF := by decide

/-- CALL with 0, 15 and 16 entries. -/
theorem witness_CallPushesTheAdvancedPcOrOverflows : base.sp.val < 16 ∧ (withStack base 15).sp.val < 16 ∧
    (withStack base 16).sp.val = 16 := by decide

/-- RET with 16, 1 and 0 entries. -/
theorem witness_RetPopsOrUnderflows : (withStack base 16).sp.val ≠ 0 ∧ (withStack base 1).sp.val ≠ 0 ∧
    base.sp.val = 0 := by decide

theorem witness_RetUndoesCall : (withStack base 15).sp.val < 16 := by decide

theorem witness_StackFaultIsPrecise : (withStack base 16).sp.val = 16 ∧ (withStack base 0).sp.val = 0 := by decide

/-- x = 0xE meets the clause on V[x]; x = 0xF meets the others alone. -/
theorem witness_flag_writers_not_into_VF : (0xE : Nibble) ≠ 0xF ∧ (0 : Nibble) ≠ 0xF := by decide

/-- An instruction that neither writes a flag nor names VF, and a draw for each clause on VF. -/
theorem witness_OnlySixInstructionsWriteVFAsAFlag : (∃ t, exec (.addImm 0xE 1) base = .next t) ∧
    (Instr.addImm 0xE 1).writesFlag = false ∧ (Instr.addImm 0xE 1).namesDest 0xF = false ∧
    (∃ t, exec (.loadRegs 0xE) base = .next t) ∧ (Instr.loadRegs 0xE).namesDest 0xF = false ∧
    (Instr.loadRegs 0xF).namesDest 0xF = true ∧
    (∃ t, exec (.drw 0 0 1) (base.setDisp (Display.clear.set 0 0xF)) = .next t ∧
      (base.setDisp (Display.clear.set 0 0xF)).pixel 0 0 = true ∧ t.pixel 0 0 = false) ∧
    (∃ t, exec (.drw 0 0 1) base = .next t ∧ ∀ p q, base.pixel p q = true → t.pixel p q = true) :=
  ⟨⟨_, rfl⟩, rfl, by decide, ⟨_, rfl⟩, by decide, by decide, ⟨_, rfl, by decide +kernel⟩, ⟨_, rfl, by decide +kernel⟩⟩

theorem witness_StoreRegsCopiesV0ToVxToMemory : (0 : Nibble).toNat ≤ (0 : Nibble).toNat ∧
    (0xF : Nibble).toNat ≤ (0xF : Nibble).toNat := by decide

theorem witness_LoadRegsCopiesMemoryToV0ToVx : (0xE : Nibble).toNat ≤ (0xE : Nibble).toNat ∧
    (0xE : Nibble).toNat < (0xF : Nibble).toNat := by decide

/-- Also where the fetched word wraps to address 0x000. -/
theorem witness_StoredWordIsFetchedNext : (base.setI 0x0202).i = (base.setI 0x0202).pc + 2 ∧
    ((base.setPc 0x0FFD).setI 0x0FFF).i = ((base.setPc 0x0FFD).setI 0x0FFF).pc + 2 := by decide

theorem witness_LdStDecidesTheSound : base.run = .running := rfl

/-- A waiting block, and one that does not wait. -/
theorem witness_KeyPressCompletesOnlyAPendingWait :
    (State.coming (base.setRun (.awaitingKey 0xF)) [.keyPress 0xF]).nextInput = .keyPress 0xF ∧
    (State.coming (base.setRun (.awaitingKey 0xF)) [.keyPress 0xF]).run = .awaitingKey 0xF ∧
    (State.coming base [.keyPress 0]).nextInput = .keyPress 0 ∧
    (∀ x, (State.coming base [.keyPress 0]).run ≠ .awaitingKey x) :=
  ⟨rfl, rfl, rfl, fun _ => nofun⟩

theorem witness_TickDecrementsBothTimers : (State.coming base [.tick]).nextInput = .tick ∧
    (State.coming base [.tick]).run = .running ∧
    (State.coming (base.setRun (.awaitingKey 1)) [.tick]).run = .awaitingKey 1 ∧
    (State.coming State.reset [.tick]).nextInput = .tick ∧ (State.coming State.reset [.tick]).run = .idle ∧
    (State.coming (base.setRun (.halted .externalHalt)) [.tick]).run = .halted .externalHalt :=
  ⟨rfl, rfl, rfl, rfl, rfl, rfl⟩

theorem witness_HaltEventStopsTheBlock : (State.coming base [.halt]).nextInput = .halt ∧
    (State.coming base [.halt]).run = .running ∧
    (State.coming (base.setRun (.awaitingKey 3)) [.halt]).run = .awaitingKey 3 ∧
    (State.coming State.reset [.halt]).run = .idle ∧
    (State.coming (base.setRun (.halted .stackOverflow)) [.halt]).run = .halted .stackOverflow :=
  ⟨rfl, rfl, rfl, rfl, rfl⟩

/-- A halted block about to get a Step. -/
theorem witness_HaltedIsLeftOnlyByResetOrLoad : (base.setRun (.halted .stackOverflow)).run = .halted .stackOverflow ∧
    (base.setRun (.halted .stackOverflow)).nextInput ≠ .powerOnReset ∧
    ∀ image, (base.setRun (.halted .stackOverflow)).nextInput ≠ .load image :=
  ⟨rfl, nofun, fun _ => nofun⟩

/-- Each way out of Running is taken by some state. -/
theorem witness_WaysOutOfRunning :
    after 1 (base.writeBytes 0x0200 [0xF5, 0x0A]) (fun t => t.run == .awaitingKey 5) = true ∧
    after 1 ((withStack base 16).writeBytes 0x0200 [0x22, 0x10]) (fun t => t.run == .halted .stackOverflow) = true ∧
    after 1 (base.writeBytes 0x0200 [0x00, 0xEE]) (fun t => t.run == .halted .stackUnderflow) = true ∧
    after 1 (State.coming base [.halt]) (fun t => t.run == .halted .externalHalt) = true ∧
    after 1 (State.coming base [.powerOnReset]) (fun t => t.run == .idle) = true := by decide +kernel

theorem witness_PowerOnResetValues : (State.coming base [.powerOnReset]).nextInput = .powerOnReset := rfl

/-- The default font, and the highest base R8 allows; the first and the last address. -/
theorem witness_InitMemoryIsFontAndZero : defaultFont.wellFormed = true ∧
    Font.wellFormed { defaultFont with base := 0x1B0 } = true ∧ 0 < 4096 ∧ 4095 < 4096 := by decide +kernel

/-- The empty image and the largest one; an address on each side of the largest image. -/
theorem witness_LoadStartsAnImageThatFits : (State.coming base [.load []]).nextInput = .load [] ∧
    ([] : List Byte).length ≤ 3584 ∧ (∃ image : List Byte, image.length = 3584 ∧
      (State.coming base [.load image]).nextInput = .load image ∧ image.length ≤ 3584 ∧ 3583 < image.length) :=
  ⟨rfl, by decide, List.replicate 3584 0, by rw [List.length_replicate], rfl, by rw [List.length_replicate],
    by rw [List.length_replicate]; decide⟩

theorem witness_LoadRefusesAnOverlargeImage : ∃ image : List Byte, image.length = 3585 ∧
    (State.coming base [.load image]).nextInput = .load image ∧ 3584 < image.length :=
  ⟨List.replicate 3585 0, by rw [List.length_replicate], rfl, by rw [List.length_replicate]; decide⟩

/-- Neighbouring keys, at the ends. -/
theorem witness_SimultaneousInputsAreOrdered : (0 : Nibble).toNat < (1 : Nibble).toNat ∧
    (0xE : Nibble).toNat < (0xF : Nibble).toNat := by decide

/-- Each part is changed by some writer. -/
theorem witness_EachPartHasOnlyItsWriters :
    runs 0xA123 base (fun t => t.i != base.i) = true ∧ runs 0xF033 (base.setI 0x0300 |>.setV 0 9)
      (fun t => t.readByte 0x0302 != base.readByte 0x0302) = true ∧
    runs 0x2210 base (fun t => t.sp != base.sp && t.stack != base.stack) = true ∧
    runs 0xF015 (base.setV 0 1) (fun t => t.dt != base.dt) = true ∧
    runs 0xF018 (base.setV 0 1) (fun t => t.st != base.st) = true ∧
    runs 0xD001 base (fun t => t.pixel 0 0 != base.pixel 0 0) = true := by decide +kernel

theorem witness_OnlyKeySkipsReadTheKeys : (∀ x, Instr.rnd 0 0xFF ≠ .skp x) ∧ ∀ x, Instr.rnd 0 0xFF ≠ .sknp x :=
  ⟨fun _ => nofun, fun _ => nofun⟩

theorem witness_StepKeepsParametersAndTrace : ∃ t, step base = .next t := ⟨_, rfl⟩

/-- A running block meets the invariant, and it has a next state. -/
theorem witness_EveryStepKeepsTheInvariant : StateInv base ∧ ∃ t, step base = .next t :=
  ⟨⟨by decide, ⟨rfl, rfl⟩, ⟨nofun, nofun⟩, nofun, nofun⟩, ⟨_, rfl⟩⟩

/-- A block halted by StackOverflow meets it too; with the stack empty it would not. -/
theorem witness_EveryRunGoesOnInsideTheInvariant : StateInv ((withStack base 16).raiseFault .stackOverflow) ∧
    ¬ StateInv (base.raiseFault .stackOverflow) :=
  ⟨⟨by decide, ⟨rfl, rfl⟩, ⟨fun _ => rfl, nofun⟩, nofun, nofun⟩,
   fun h => absurd (h.frozenStack.1 rfl) (by decide)⟩

end Sys2Proof.Tests
end

section
/-!
SUPPORT and the proof of O28 (spec/10_state.md R22): which V registers an instruction may write, said once over all 34
instructions, and the value the flag write leaves in VF.
-/

namespace Sys2Proof.Machine

/-! ## VF after the flag write -/

/-- A flag is written last, so VF holds it whatever else the instruction wrote (R21, R22). -/
theorem State.getV_VF_setFlag (s : State) (f : Bool) : (s.setFlag f).getV 0xF = if f = true then 1 else 0 :=
  State.getV_setV_self s 0xF _

theorem State.getV_setFlag_of_ne (s : State) (f : Bool) {k : Nibble} (h : k ≠ 0xF) : (s.setFlag f).getV k = s.getV k :=
  State.getV_setV_of_ne s _ h

/-- VF after a flag write, in terms of the condition `c` that the flag decides. -/
theorem State.getV_VF_setFlag_of_iff (s : State) {f : Bool} {c : Prop} [Decidable c] (h : f = true ↔ c) :
    (s.setFlag f).getV 0xF = if c then 1 else 0 := by
  rw [State.getV_VF_setFlag]
  exact if_congr h rfl rfl

theorem carryOf_iff (a b : Byte) : carryOf a b = true ↔ 255 < a.toNat + b.toNat := decide_eq_true_iff

theorem greaterOf_iff (a b : Byte) : greaterOf a b = true ↔ b < a := decide_eq_true_iff

/-! ## The collision flag of DRW (spec/41_display.md R101, R104) -/

@[simp] theorem State.setDisp_pixel (s : State) (d : Display) (p : Fin 32) (q : Fin 64) :
    (s.setDisp d).pixel p q = d.pixel p q := rfl

/-- A sprite collides exactly when drawing it turns a pixel from 1 to 0. -/
theorem State.sprite_collides_iff (s : State) (x y n : Nibble) :
    (s.sprite x y n).2 = true ↔ ∃ p q, s.pixel p q = true ∧ (s.sprite x y n).1.pixel p q = false := by
  have hlen : (s.readBytes s.i n.toNat).length ≤ 32 := by
    rw [State.readBytes, Memory.length_readBytes]
    exact n.isLt.le.trans (by decide)
  obtain ⟨hpixel, hcollision⟩ := Display.drawRows_spec (s.getV x).toNat (s.getV y).toNat _ hlen s.disp
  rw [State.sprite, hcollision]
  refine exists_congr fun p => exists_congr fun q => ?_
  rw [hpixel, State.pixel]
  cases s.disp.pixel p q <;> simp

/-! ## What stays of the V registers -/

theorem State.getV_of_push {s t : State} {w : Word} (h : s.push w = some t) (k : Nibble) : t.getV k = s.getV k := by
  have hroom : s.sp.val < 16 :=
    Nat.lt_of_le_of_ne (Nat.le_of_lt_succ s.sp.isLt) (mt (State.push_eq_none (w := w)).mpr (by simp [h]))
  rw [State.push_of_lt w hroom] at h
  cases h
  rfl

theorem State.getV_of_pop {s t : State} {w : Word} (h : s.pop = some (w, t)) (k : Nibble) : t.getV k = s.getV k := by
  have hentry : s.sp.val ≠ 0 := mt State.pop_eq_none.mpr (by simp [h])
  rw [State.pop_of_pos hentry] at h
  cases h
  rfl

/-- RET writes no V register, with and without an entry to pop. -/
theorem execRet_getV {x : Nibble} {s t : State} (h : execRet x s = .next t) (k : Nibble) : t.getV k = s.getV k := by
  unfold execRet at h
  split at h
  · cases h; simp
  · rename_i hpop
    cases h; simp [State.getV_of_pop hpop]

/-- CALL writes no V register, with and without room for the push. -/
theorem execCall_getV {nnn : Addr12} {s t : State} (h : execCall nnn s = .next t) (k : Nibble) :
    t.getV k = s.getV k := by
  unfold execCall at h
  split at h
  · cases h; simp
  · rename_i hpush
    cases h; simp [State.getV_of_push hpush]

/-- A register write and then a flag write leave every other V register. -/
theorem State.getV_setFlag_setV_of_ne (s : State) {x k : Nibble} (b : Byte) (f : Bool) (hx : k ≠ x) (hf : k ≠ 0xF) :
    ((s.setV x b).setFlag f).getV k = s.getV k := by
  rw [State.getV_setFlag_of_ne _ _ hf, State.getV_setV_of_ne _ _ hx]

/-- An instruction changes no V register but those it names as destinations and, if it is a flag writer, VF (R22). -/
theorem exec_getV_of_not_namesDest {i : Instr} {s t : State} {k : Nibble} (h : exec i s = .next t)
    (hdest : i.namesDest k = false) (hflag : i.writesFlag = true → k ≠ 0xF) : t.getV k = s.getV k := by
  cases i with
  | ret x => exact execRet_getV (x := x) h k
  | call nnn => exact execCall_getV (nnn := nnn) h k
  | cls | jp | jpV0 | ldI | addI | ldF | ldB | storeRegs | ldVxK | ldDtVx | ldStVx =>
    obtain rfl := Host.Outcome.next.inj h
    rfl
  | seImm | sneImm | seReg | sneReg | skp | sknp =>
    obtain rfl := Host.Outcome.next.inj h
    exact State.skipIf_getV ..
  | ldImm | addImm | ldReg | orReg | andReg | xorReg | rnd | ldVxDt =>
    obtain rfl := Host.Outcome.next.inj h
    exact State.getV_setV_of_ne _ _ (ne_of_beq_false hdest)
  | addReg | subReg | shr | subnReg | shl =>
    obtain rfl := Host.Outcome.next.inj h
    exact State.getV_setFlag_setV_of_ne _ _ _ (ne_of_beq_false hdest) (hflag rfl)
  | drw =>
    obtain rfl := Host.Outcome.next.inj h
    exact State.getV_setFlag_of_ne _ _ (hflag rfl)
  | loadRegs x =>
    obtain rfl := Host.Outcome.next.inj h
    have hlt : ¬ k.toNat ≤ x.toNat := of_decide_eq_false hdest
    simp only [State.getV_setRegsFrom0, State.readBytes, Memory.length_readBytes, Nat.lt_succ_iff, hlt, dif_neg,
      not_false_iff, State.advance_getV]

/-- DRW leaves 1 in VF if it turned a pixel from 1 to 0, else 0 (R104). -/
theorem execDrw_VF {x y n : Nibble} {s t : State} (h : execDrw x y n s = .next t) :
    ((∃ p q, s.pixel p q = true ∧ t.pixel p q = false) → t.getV 0xF = 1) ∧
      ((∀ p q, s.pixel p q = true → t.pixel p q = true) → t.getV 0xF = 0) := by
  obtain rfl := Host.Outcome.next.inj h
  simp only [State.getV_VF_setFlag_of_iff _ (State.sprite_collides_iff s x y n), State.setFlag_pixel,
    State.setDisp_pixel]
  refine ⟨fun hc => if_pos hc, fun hk => if_neg ?_⟩
  rintro ⟨p, q, hs, ht⟩
  simp [hk p q hs] at ht

/-- Settles O28: one frame lemma over all instructions gives the first clause; each flag writer's last write gives its
value. -/
theorem onlySixInstructionsWriteVFAsAFlag : Obligations.OnlySixInstructionsWriteVFAsAFlag := by
  intro i s t h
  refine ⟨fun hflag hdest => exec_getV_of_not_namesDest h hdest (by simp [hflag]), ?_⟩
  cases i with
  | addReg x y =>
    obtain rfl := Host.Outcome.next.inj h
    exact State.getV_VF_setFlag_of_iff _ (carryOf_iff _ _)
  | subReg | subnReg =>
    obtain rfl := Host.Outcome.next.inj h
    exact State.getV_VF_setFlag_of_iff _ (greaterOf_iff _ _)
  | shr | shl =>
    obtain rfl := Host.Outcome.next.inj h
    exact State.getV_VF_setFlag _ _
  | drw x y n => exact execDrw_VF h
  | _ => rfl

end Sys2Proof.Machine
end

section
/-!
SUPPORT and the proof of O44 (spec/40_execution_cycle.md R97): what RET and CALL do with the stack in either case, what
each instruction and each input leaves in RUN, and with them the ways out of Running.
-/

namespace Sys2Proof.Machine

/-! ## RET and CALL, by what the stack holds (spec/42_control_flow.md R110, R112) -/

theorem execRet_of_empty (x : Nibble) {s : State} (h : s.sp.val = 0) :
    execRet x s = .next (s.raiseFault .stackUnderflow) := by
  have hpop : s.advance.pop = none := State.pop_eq_none.mpr h
  rw [execRet, hpop]

theorem execRet_of_entry (x : Nibble) {s : State} (h : s.sp.val ≠ 0) :
    execRet x s = .next { s with pc := s.stack[s.sp.val - 1], sp := ⟨s.sp.val - 1, by omega⟩ } := by
  have hpop := State.pop_of_pos (s := s.advance) h
  rw [execRet, hpop]
  rfl

theorem execCall_of_full (nnn : Addr12) {s : State} (h : s.sp.val = 16) :
    execCall nnn s = .next (s.raiseFault .stackOverflow) := by
  have hpush : s.advance.push s.advance.pc = none := State.push_eq_none.mpr h
  rw [execCall, hpush]

theorem execCall_of_room (nnn : Addr12) {s : State} (h : s.sp.val < 16) :
    execCall nnn s = .next { s with
      stack := s.stack.set s.sp.val (s.pc + 2) h, sp := ⟨s.sp.val + 1, Nat.succ_lt_succ h⟩, pc := addrOf nnn } := by
  have hpush := State.push_of_lt (s := s.advance) s.advance.pc h
  rw [execCall, hpush]
  rfl

/-! ## RUN after an instruction -/

/-- An instruction keeps RUN, but for LD Vx,K (R174), CALL with the stack full and RET with it empty (R112, R110). -/
theorem exec_run {i : Instr} {s t : State} (h : exec i s = .next t) :
    t.run = s.run ∨
    (∃ x, i = .ldVxK x ∧ t.run = .awaitingKey x) ∨
    (∃ nnn, i = .call nnn ∧ s.sp.val = 16 ∧ t.run = .halted .stackOverflow) ∨
    (∃ x, i = .ret x ∧ s.sp.val = 0 ∧ t.run = .halted .stackUnderflow) := by
  cases i with
  | ldVxK x =>
    obtain rfl := Host.Outcome.next.inj h
    exact .inr (.inl ⟨x, rfl, rfl⟩)
  | call nnn =>
    by_cases hfull : s.sp.val = 16
    · obtain rfl := Host.Outcome.next.inj ((execCall_of_full nnn hfull).symm.trans h)
      exact .inr (.inr (.inl ⟨nnn, rfl, hfull, rfl⟩))
    · obtain rfl := Host.Outcome.next.inj ((execCall_of_room nnn (by omega)).symm.trans h)
      exact .inl rfl
  | ret x =>
    by_cases hempty : s.sp.val = 0
    · obtain rfl := Host.Outcome.next.inj ((execRet_of_empty x hempty).symm.trans h)
      exact .inr (.inr (.inr ⟨x, rfl, hempty, rfl⟩))
    · obtain rfl := Host.Outcome.next.inj ((execRet_of_entry x hempty).symm.trans h)
      exact .inl rfl
  | seImm | sneImm | seReg | sneReg | skp | sknp =>
    obtain rfl := Host.Outcome.next.inj h
    exact .inl (State.skipIf_run ..)
  | _ =>
    obtain rfl := Host.Outcome.next.inj h
    exact .inl rfl

/-! ## The inputs in Running -/

@[simp] theorem State.dropInput_fetchWord (s : State) : s.dropInput.fetchWord = s.fetchWord := rfl

theorem stepEvent_of_decode_ok {s : State} {i : Instr} (hrun : s.run = .running)
    (hdec : decodeWord s.fetchWord = .ok i) : stepEvent s = exec i s := by
  simp only [stepEvent, hrun, hdec]

theorem stepEvent_of_decode_error {s : State} {e : DecodeError} (hrun : s.run = .running)
    (hdec : decodeWord s.fetchWord = .error e) : stepEvent s = .next (s.unknownWord s.fetchWord) := by
  simp only [stepEvent, hrun, hdec]

/-- A Step that takes the block out of Running executes an instruction: an unknown word keeps RUN (R94). -/
theorem stepEvent_leaves_running {s t : State} (hrun : s.run = .running) (h : stepEvent s = .next t)
    (hleft : t.run ≠ .running) : ∃ i, decodeWord s.fetchWord = .ok i ∧ exec i s = .next t := by
  cases hdec : decodeWord s.fetchWord with
  | ok i => exact ⟨i, rfl, (stepEvent_of_decode_ok hrun hdec).symm.trans h⟩
  | error e =>
    obtain rfl := Host.Outcome.next.inj ((stepEvent_of_decode_error hrun hdec).symm.trans h)
    exact absurd hrun hleft

/-- A Tick counts the timers alone (spec/60_exceptions.md R207). -/
@[simp] theorem tick_run (s : State) : (tick s).run = s.run := by
  unfold tick
  split <;> rfl

/-- In Running a KeyPress is dropped (spec/45_timers_keys_random.md R175). -/
theorem keyPress_of_running (k : Nibble) {s : State} (h : s.run = .running) : keyPress k s = s := by
  simp only [keyPress, h]

@[simp] theorem setKeyLevels_run (levels : BitVec 16) (s : State) : (setKeyLevels levels s).run = s.run := rfl

theorem haltBlock_of_running {s : State} (h : s.run = .running) : haltBlock s = s.raiseFault .externalHalt := by
  simp only [haltBlock, h]

/-! ## The ways out of Running -/

/-- Settles O44: by the input taken; Tick, KeyPress and the key levels keep Running, and a Step that leaves it does so by
one of the three instructions of `exec_run`. -/
theorem waysOutOfRunning : Obligations.WaysOutOfRunning := by
  intro s t hrun h hleft
  have hdrop : s.dropInput.run = .running := hrun
  rw [step] at h
  cases hin : s.nextInput <;> rw [hin] at h
  case step =>
    obtain ⟨i, hdec, hexec⟩ := stepEvent_leaves_running hdrop h hleft
    rw [State.dropInput_fetchWord] at hdec
    rcases exec_run hexec with hkept | ⟨x, rfl, ht⟩ | ⟨nnn, rfl, hfull, ht⟩ | ⟨x, rfl, hempty, ht⟩
    · exact absurd (hkept.trans hdrop) hleft
    · exact .inl ⟨x, rfl, hdec, ht⟩
    · exact .inr (.inl ⟨nnn, rfl, hdec, hfull, ht⟩)
    · exact .inr (.inr (.inl ⟨x, rfl, hdec, hempty, ht⟩))
  case halt =>
    obtain rfl := Host.Outcome.next.inj h
    rw [haltBlock_of_running hdrop]
    exact .inr (.inr (.inr (.inl ⟨rfl, rfl⟩)))
  case powerOnReset => exact .inr (.inr (.inr (.inr (.inl rfl))))
  case load image => exact .inr (.inr (.inr (.inr (.inr ⟨image, rfl⟩))))
  case tick =>
    obtain rfl := Host.Outcome.next.inj h
    exact absurd ((tick_run _).trans hdrop) hleft
  case keyPress k =>
    obtain rfl := Host.Outcome.next.inj h
    rw [keyPress_of_running k hdrop] at hleft
    exact absurd hdrop hleft
  case keyLevels levels =>
    obtain rfl := Host.Outcome.next.inj h
    exact absurd ((setKeyLevels_run levels _).trans hdrop) hleft

end Sys2Proof.Machine
end

section
/-!
SUPPORT and the proof of O12 (spec/41_display.md R100): what a display write after the advance leaves unchanged, and CLS as
the write of the clear display.
-/

namespace Sys2Proof.Machine

/-- The advance and a display write together change PC and pixels alone. -/
theorem State.frame_advance_setDisp (s : State) (d : Display) : Frame { screen := true } s (s.advance.setDisp d) where
  regs _ _ := rfl
  index _ := rfl
  mem _ _ := rfl
  stack _ := ⟨rfl, rfl⟩
  dt _ := rfl
  st _ := rfl
  screen h := nomatch h
  run _ := rfl
  fault _ := ⟨rfl, rfl⟩
  env _ := rfl
  inputs := ⟨rfl, rfl, rfl⟩
  diags := rfl

/-- CLS is one display write, of the clear display (R100). -/
theorem exec_cls (x : Nibble) (s : State) : exec (.cls x) s = .next (s.advance.setDisp Display.clear) := rfl

/-- Settles O12: CLS writes the clear display, whose every pixel is 0, and a display write keeps everything else. -/
theorem clsClearsEveryPixel : Obligations.ClsClearsEveryPixel := by
  intro x s
  refine ⟨s.advance.setDisp Display.clear, exec_cls x s, fun p q => ?_, ?_, s.frame_advance_setDisp _⟩
  · rw [State.setDisp_pixel, Display.pixel_clear]
  · rw [State.setDisp_pc, State.advance_pc]

end Sys2Proof.Machine
end

section
/-!
SUPPORT and the proofs of O16 and O21 (spec/42_control_flow.md R111, R113, R114, R117): JP, JP V0,nnn and the skips on an
immediate are each one write of PC.
-/

namespace Sys2Proof.Machine

/-! ## Writing PC alone -/

/-- A write of PC changes nothing else. -/
theorem State.frame_setPc (s : State) (a : Word) : Frame {} s (s.setPc a) where
  regs _ _ := rfl
  index _ := rfl
  mem _ _ := rfl
  stack _ := ⟨rfl, rfl⟩
  dt _ := rfl
  st _ := rfl
  screen _ _ _ := rfl
  run _ := rfl
  fault _ := ⟨rfl, rfl⟩
  env _ := rfl
  inputs := ⟨rfl, rfl, rfl⟩
  diags := rfl

/-- The advance and a skip together are one write of PC: 4 past it when the condition holds, else 2 (R91). -/
theorem State.advance_skipIf (s : State) (c : Bool) :
    s.advance.skipIf c = s.setPc (if c = true then s.pc + 4 else s.pc + 2) := by
  cases c with
  | false => rfl
  | true =>
    have htwice : s.pc + 2 + 2 = s.pc + 4 := BitVec.add_assoc ..
    exact congrArg s.setPc htwice

/-! ## The targets of the jumps (spec/00_scope.md R10) -/

theorem toNat_addrOf (nnn : Addr12) : (addrOf nnn).toNat = nnn.toNat :=
  BitVec.toNat_setWidth_of_le (by decide)

theorem toNat_wordOf (b : Byte) : (wordOf b).toNat = b.toNat :=
  BitVec.toNat_setWidth_of_le (by decide)

theorem exec_jp (nnn : Addr12) (s : State) : exec (.jp nnn) s = .next (s.setPc (addrOf nnn)) := rfl

theorem exec_jpV0 (nnn : Addr12) (s : State) :
    exec (.jpV0 nnn) s = .next (s.setPc (addrOf nnn + wordOf (s.getV 0))) := rfl

/-- Settles O16: each jump is one write of PC, to the zero-extended address, the second with V0 added mod 65536. -/
theorem jumpsSetPcAlone : Obligations.JumpsSetPcAlone := by
  intro nnn s
  refine ⟨⟨_, exec_jp nnn s, ?_, s.frame_setPc _⟩, ⟨_, exec_jpV0 nnn s, ?_, s.frame_setPc _⟩⟩
  · rw [State.setPc_pc, toNat_addrOf]
  · rw [State.setPc_pc, BitVec.toNat_add, toNat_addrOf, toNat_wordOf]

/-! ## The skips on an immediate -/

theorem exec_seImm (x : Nibble) (kk : Byte) (s : State) :
    exec (.seImm x kk) s = .next (s.setPc (if s.getV x = kk then s.pc + 4 else s.pc + 2)) := by
  have hskip : exec (.seImm x kk) s = .next (s.advance.skipIf (s.getV x == kk)) := rfl
  simp only [hskip, State.advance_skipIf, beq_iff_eq]

theorem exec_sneImm (x : Nibble) (kk : Byte) (s : State) :
    exec (.sneImm x kk) s = .next (s.setPc (if s.getV x = kk then s.pc + 2 else s.pc + 4)) := by
  have hskip : exec (.sneImm x kk) s = .next (s.advance.skipIf (s.getV x != kk)) := rfl
  simp only [hskip, State.advance_skipIf, bne_iff_ne, ite_not]

/-- Settles O21: each skip is one write of PC, by 4 or by 2 as V[x] and kk compare. -/
theorem immediateSkips : Obligations.ImmediateSkips := fun x kk s =>
  ⟨⟨_, exec_seImm x kk s, s.setPc_pc _, s.frame_setPc _⟩, ⟨_, exec_sneImm x kk s, s.setPc_pc _, s.frame_setPc _⟩⟩

end Sys2Proof.Machine
end

section
/-!
SUPPORT and the proofs of O23 to O27 (spec/43_alu.md R130 to R140): each instruction of the family is the advance and one
register write, followed for ADD Vx,Vy, SUB, SUBN and the shifts by the flag write.
-/

namespace Sys2Proof.Machine

/-! ## The two forms of write -/

/-- The advance and a register write together change PC and that register alone. -/
theorem State.frame_advance_setV (s : State) (x : Nibble) (b : Byte) : Frame { regs := [x] } s (s.advance.setV x b) where
  regs _ hk := State.getV_setV_of_ne _ b (List.ne_of_not_mem_cons hk)
  index _ := rfl
  mem _ _ := rfl
  stack _ := ⟨rfl, rfl⟩
  dt _ := rfl
  st _ := rfl
  screen _ _ _ := rfl
  run _ := rfl
  fault _ := ⟨rfl, rfl⟩
  env _ := rfl
  inputs := ⟨rfl, rfl, rfl⟩
  diags := rfl

/-- A flag write adds VF to the registers that may have changed, and nothing else. -/
theorem Frame.setFlag {s t : State} {x : Nibble} (h : Frame { regs := [x] } s t) (f : Bool) :
    Frame { regs := [x, 0xF] } s (t.setFlag f) where
  regs k hk := by
    obtain ⟨hx, hF⟩ : k ≠ x ∧ k ≠ 0xF := by simpa using hk
    rw [State.getV_setFlag_of_ne t f hF]
    exact h.regs k (by simpa using hx)
  index := h.index
  mem := h.mem
  stack := h.stack
  dt := h.dt
  st := h.st
  screen := h.screen
  run := h.run
  fault := h.fault
  env := h.env
  inputs := h.inputs
  diags := h.diags

theorem State.frame_advance_setV_setFlag (s : State) (x : Nibble) (b : Byte) (f : Bool) :
    Frame { regs := [x, 0xF] } s ((s.advance.setV x b).setFlag f) :=
  (s.frame_advance_setV x b).setFlag f

/-- The flag write leaves the result in V[x], unless V[x] is VF itself. -/
theorem State.getV_setFlag_setV_self (s : State) {x : Nibble} (b : Byte) (f : Bool) (h : x ≠ 0xF) :
    ((s.setV x b).setFlag f).getV x = b := by
  rw [State.getV_setFlag_of_ne _ f h, State.getV_setV_self]

/-! ## The results and the bits shifted out, as numbers -/

theorem toNat_sub_byte (a b : Byte) : (a - b).toNat = (256 + a.toNat - b.toNat) % 256 := by
  rw [BitVec.toNat_sub, Nat.sub_add_comm b.isLt.le]

theorem toNat_shiftRight_one (a : Byte) : (a >>> 1).toNat = a.toNat / 2 := by
  rw [BitVec.toNat_ushiftRight, Nat.shiftRight_eq_div_pow, pow_one]

theorem toNat_shiftLeft_one (a : Byte) : (a <<< 1).toNat = 2 * a.toNat % 256 := by
  rw [BitVec.toNat_shiftLeft, Nat.shiftLeft_eq, pow_one, Nat.mul_comm]

theorem State.toNat_getV_VF_setFlag (s : State) (f : Bool) : ((s.setFlag f).getV 0xF).toNat = f.toNat := by
  rw [State.getV_VF_setFlag]
  cases f <;> rfl

theorem toNat_lowBit (a : Byte) : (lowBit a).toNat = a.toNat % 2 := by
  rw [lowBit, BitVec.getLsbD, Nat.toNat_testBit, pow_zero, Nat.div_one]

theorem toNat_highBit (a : Byte) : (highBit a).toNat = a.toNat / 128 := by
  have hbit : a.toNat / 128 < 2 := Nat.div_lt_of_lt_mul a.isLt
  rw [highBit, BitVec.getLsbD, Nat.toNat_testBit]
  exact Nat.mod_eq_of_lt hbit

/-! ## The instructions without a flag -/

theorem exec_ldImm (x : Nibble) (kk : Byte) (s : State) : exec (.ldImm x kk) s = .next (s.advance.setV x kk) := rfl

theorem exec_addImm (x : Nibble) (kk : Byte) (s : State) :
    exec (.addImm x kk) s = .next (s.advance.setV x (s.getV x + kk)) := rfl

theorem exec_ldReg (x y : Nibble) (s : State) : exec (.ldReg x y) s = .next (s.advance.setV x (s.getV y)) := rfl

theorem exec_orReg (x y : Nibble) (s : State) :
    exec (.orReg x y) s = .next (s.advance.setV x (s.getV x ||| s.getV y)) := rfl

theorem exec_andReg (x y : Nibble) (s : State) :
    exec (.andReg x y) s = .next (s.advance.setV x (s.getV x &&& s.getV y)) := rfl

theorem exec_xorReg (x y : Nibble) (s : State) :
    exec (.xorReg x y) s = .next (s.advance.setV x (s.getV x ^^^ s.getV y)) := rfl

/-- Settles O23: each is one register write; the sum of two bytes is taken mod 256. -/
theorem immediateLoadAndAdd : Obligations.ImmediateLoadAndAdd := by
  intro x kk s
  refine ⟨⟨_, exec_ldImm x kk s, State.getV_setV_self _ x kk, rfl, s.frame_advance_setV x _⟩,
    ⟨_, exec_addImm x kk s, ?_, rfl, s.frame_advance_setV x _⟩⟩
  rw [State.getV_setV_self, BitVec.toNat_add]

/-- Settles O24: each is one register write, of a word whose bits are those of V[x] and V[y] combined one by one. -/
theorem copyAndLogicWriteOnlyVx : Obligations.CopyAndLogicWriteOnlyVx := by
  intro x y s
  refine ⟨⟨_, exec_ldReg x y s, State.getV_setV_self _ x _, rfl, s.frame_advance_setV x _⟩,
    ⟨_, exec_orReg x y s, fun k => ?_, rfl, s.frame_advance_setV x _⟩,
    ⟨_, exec_andReg x y s, fun k => ?_, rfl, s.frame_advance_setV x _⟩,
    ⟨_, exec_xorReg x y s, fun k => ?_, rfl, s.frame_advance_setV x _⟩⟩
  · rw [State.getV_setV_self, BitVec.getLsbD_or]
  · rw [State.getV_setV_self, BitVec.getLsbD_and]
  · rw [State.getV_setV_self, BitVec.getLsbD_xor]

/-! ## The instructions with a flag -/

theorem exec_addReg (x y : Nibble) (s : State) : exec (.addReg x y) s =
    .next ((s.advance.setV x (s.getV x + s.getV y)).setFlag (carryOf (s.getV x) (s.getV y))) := rfl

theorem exec_subReg (x y : Nibble) (s : State) : exec (.subReg x y) s =
    .next ((s.advance.setV x (s.getV x - s.getV y)).setFlag (greaterOf (s.getV x) (s.getV y))) := rfl

theorem exec_subnReg (x y : Nibble) (s : State) : exec (.subnReg x y) s =
    .next ((s.advance.setV x (s.getV y - s.getV x)).setFlag (greaterOf (s.getV y) (s.getV x))) := rfl

theorem exec_shr (x y : Nibble) (s : State) : exec (.shr x y) s =
    .next ((s.advance.setV x (s.getV x >>> 1)).setFlag (lowBit (s.getV x))) := rfl

theorem exec_shl (x y : Nibble) (s : State) : exec (.shl x y) s =
    .next ((s.advance.setV x (s.getV x <<< 1)).setFlag (highBit (s.getV x))) := rfl

/-- Settles O25: the sum is written to V[x], then the carry to VF. -/
theorem addWritesSumThenCarry : Obligations.AddWritesSumThenCarry := by
  intro x y s
  refine ⟨_, exec_addReg x y s, fun hx => ?_, State.getV_VF_setFlag_of_iff _ (carryOf_iff _ _), rfl,
    s.frame_advance_setV_setFlag x _ _⟩
  rw [State.getV_setFlag_setV_self _ _ _ hx, BitVec.toNat_add]

/-- Settles O26: the difference is written to V[x], then the strict comparison to VF. -/
theorem subtractionsWriteDifferenceThenStrictFlag : Obligations.SubtractionsWriteDifferenceThenStrictFlag := by
  intro x y s
  refine ⟨⟨_, exec_subReg x y s, fun hx => ?_, State.getV_VF_setFlag_of_iff _ (greaterOf_iff _ _), rfl,
      s.frame_advance_setV_setFlag x _ _⟩,
    ⟨_, exec_subnReg x y s, fun hx => ?_, State.getV_VF_setFlag_of_iff _ (greaterOf_iff _ _), rfl,
      s.frame_advance_setV_setFlag x _ _⟩⟩
  all_goals rw [State.getV_setFlag_setV_self _ _ _ hx, toNat_sub_byte]

/-- Settles O27: V[x] shifted is written to V[x], then the bit shifted out to VF; V[y] is in neither write. -/
theorem shiftsWriteResultThenLostBit : Obligations.ShiftsWriteResultThenLostBit := by
  intro x y s
  refine ⟨⟨_, exec_shr x y s, fun hx => ?_, ?_, rfl, s.frame_advance_setV_setFlag x _ _⟩,
    ⟨_, exec_shl x y s, fun hx => ?_, ?_, rfl, s.frame_advance_setV_setFlag x _ _⟩⟩
  · rw [State.getV_setFlag_setV_self _ _ _ hx, toNat_shiftRight_one]
  · rw [State.toNat_getV_VF_setFlag, toNat_lowBit]
  · rw [State.getV_setFlag_setV_self _ _ _ hx, toNat_shiftLeft_one]
  · rw [State.toNat_getV_VF_setFlag, toNat_highBit]

end Sys2Proof.Machine
end

section
/-!
SUPPORT and the proof of O29 (spec/44_index_memory.md R150, R151): what an index write after the advance leaves unchanged,
and LD I,nnn and ADD I,Vx as one such write each.
-/

namespace Sys2Proof.Machine

/-- The advance and an index write together change PC and I alone. -/
theorem State.frame_advance_setI (s : State) (a : Word) : Frame { index := true } s (s.advance.setI a) where
  regs _ _ := rfl
  index h := nomatch h
  mem _ _ := rfl
  stack _ := ⟨rfl, rfl⟩
  dt _ := rfl
  st _ := rfl
  screen _ _ _ := rfl
  run _ := rfl
  fault _ := ⟨rfl, rfl⟩
  env _ := rfl
  inputs := ⟨rfl, rfl, rfl⟩
  diags := rfl

theorem exec_ldI (nnn : Addr12) (s : State) : exec (.ldI nnn) s = .next (s.advance.setI (addrOf nnn)) := rfl

theorem exec_addI (x : Nibble) (s : State) :
    exec (.addI x) s = .next (s.advance.setI (s.i + wordOf (s.getV x))) := rfl

/-- Settles O29: each is one index write, of the zero-extended address or of the sum of I and V[x] as 16-bit words. -/
theorem indexLoadAndAdd : Obligations.IndexLoadAndAdd := by
  intro nnn x s
  refine ⟨⟨_, exec_ldI nnn s, ?_, s.advance_pc, s.frame_advance_setI _⟩,
    ⟨_, exec_addI x s, ?_, s.advance_pc, s.frame_advance_setI _⟩⟩
  · rw [State.setI_i, toNat_addrOf]
  · rw [State.setI_i, BitVec.toNat_add, toNat_wordOf]

end Sys2Proof.Machine
end

section
/-!
SUPPORT and the proofs of O1 to O5 (spec/30_encoding.md R70 to R75): what the decoder answers by the opcode nibble and by
the subfield of a family, the two directions of the round trip, and the rows of R74 read field by field.
-/

namespace Sys2Proof

/-- Settles O1: the decoder evaluates on each of the nine words. -/
theorem writtenOutWordsDecode : Obligations.WrittenOutWordsDecode :=
  ⟨rfl, rfl, rfl, rfl, rfl, rfl, rfl, rfl, rfl⟩

/-! ## From the instruction to its word and back -/

/-- Decoding the word of an instruction gives it back. -/
theorem decodeWord_encode (i : Instr) : decodeWord (encode i) = .ok i := by
  cases i with
  | jp | call | ldI | jpV0 | seImm | sneImm | ldImm | addImm | rnd | seReg | sneReg | drw =>
    simp [encode, decodeWord]
  | cls | ret => simp [encode, decodeWord, decodeFamily0]
  | ldReg | orReg | andReg | xorReg | addReg | subReg | shr | subnReg | shl => simp [encode, decodeWord, decodeFamily8]
  | skp | sknp => simp [encode, decodeWord, decodeFamilyE]
  | ldVxDt | ldVxK | ldDtVx | ldStVx | addI | ldF | ldB | storeRegs | loadRegs =>
    simp [encode, decodeWord, decodeFamilyF]

/-- The two bytes of a word, at the front of any bytes, decode as the word does (R71, R77). -/
theorem decode_bytesOfWord_append {w : Word} {i : Instr} (h : decodeWord w = .ok i) (rest : List Byte) :
    decode (bytesOfWord w ++ rest) = .ok (i, rest) := by
  simp [bytesOfWord, decode, h]

/-- Settles O2: the word of an instruction decodes to it, and its two bytes are read as that word whatever follows. -/
theorem decodingTheEncodingGivesTheInstruction : Obligations.DecodingTheEncodingGivesTheInstruction :=
  fun i rest => decode_bytesOfWord_append (decodeWord_encode i) rest

/-! ## From a word to its instruction and back -/

theorem packNNN_of_opcode {w : Word} {op : Nibble} (h : opcodeOf w = op) : packNNN op (fieldNNN w) = w :=
  h ▸ packNNN_fields w

theorem packXKK_of_opcode {w : Word} {op : Nibble} (h : opcodeOf w = op) : packXKK op (fieldX w) (fieldKK w) = w :=
  h ▸ packXKK_fields w

theorem packXKK_of_opcode_kk {w : Word} {op : Nibble} {kk : Byte} (h : opcodeOf w = op) (hkk : fieldKK w = kk) :
    packXKK op (fieldX w) kk = w :=
  hkk ▸ packXKK_of_opcode h

theorem packXYN_of_opcode {w : Word} {op : Nibble} (h : opcodeOf w = op) :
    packXYN op (fieldX w) (fieldY w) (fieldN w) = w :=
  h ▸ packXYN_fields w

theorem packXYN_of_opcode_n {w : Word} {op n : Nibble} (h : opcodeOf w = op) (hn : fieldN w = n) :
    packXYN op (fieldX w) (fieldY w) n = w :=
  hn ▸ packXYN_of_opcode h

theorem encode_of_decodeFamily0 {w : Word} {i : Instr} (hop : opcodeOf w = 0x0) (h : decodeFamily0 w = .ok i) :
    encode i = w := by
  unfold decodeFamily0 at h
  split at h <;> cases h
  all_goals exact packXKK_of_opcode_kk hop ‹_›

theorem encode_of_decodeFamily8 {w : Word} {i : Instr} (hop : opcodeOf w = 0x8) (h : decodeFamily8 w = .ok i) :
    encode i = w := by
  unfold decodeFamily8 at h
  split at h <;> cases h
  all_goals exact packXYN_of_opcode_n hop ‹_›

theorem encode_of_decodeFamilyE {w : Word} {i : Instr} (hop : opcodeOf w = 0xE) (h : decodeFamilyE w = .ok i) :
    encode i = w := by
  unfold decodeFamilyE at h
  split at h <;> cases h
  all_goals exact packXKK_of_opcode_kk hop ‹_›

theorem encode_of_decodeFamilyF {w : Word} {i : Instr} (hop : opcodeOf w = 0xF) (h : decodeFamilyF w = .ok i) :
    encode i = w := by
  unfold decodeFamilyF at h
  split at h <;> cases h
  all_goals exact packXKK_of_opcode_kk hop ‹_›

/-- What the last pattern of `decodeWord` is reached with. -/
theorem eq_F_of_notMem : ∀ op : Nibble, op ∉ [0x0#4, 0x1#4, 0x2#4, 0x3#4, 0x4#4, 0x5#4, 0x6#4, 0x7#4, 0x8#4, 0x9#4, 0xA#4,
    0xB#4, 0xC#4, 0xD#4, 0xE#4] → op = 0xF#4 := by decide

/-- The word is the encoding of what it decodes to. -/
theorem encode_of_decodeWord {w : Word} {i : Instr} (h : decodeWord w = .ok i) : encode i = w := by
  unfold decodeWord at h
  split at h
  case h_1 hop => exact encode_of_decodeFamily0 hop h
  case h_9 hop => exact encode_of_decodeFamily8 hop h
  case h_15 hop => exact encode_of_decodeFamilyE hop h
  case h_16 => exact encode_of_decodeFamilyF (eq_F_of_notMem _ (by simp_all)) h
  case h_2 hop | h_3 hop | h_11 hop | h_12 hop => cases h; exact packNNN_of_opcode hop
  case h_4 hop | h_5 hop | h_7 hop | h_8 hop | h_13 hop => cases h; exact packXKK_of_opcode hop
  case h_6 hop | h_10 hop | h_14 hop => cases h; exact packXYN_of_opcode hop

/-- Settles O3, by the opcode nibble and, in a family, by its subfield: every field is either kept or fixed. -/
theorem encodingTheDecodingGivesTheWord : Obligations.EncodingTheDecodingGivesTheWord :=
  fun _ _ => encode_of_decodeWord

/-! ## The words that do not decode (R75) -/

theorem decodeFamily0_error_iff (w : Word) :
    (∃ e, decodeFamily0 w = .error e) ↔ fieldKK w ≠ 0xE0#8 ∧ fieldKK w ≠ 0xEE#8 := by
  unfold decodeFamily0
  split <;> simp_all

theorem mem_unknown8_of_notMem : ∀ n : Nibble, n ∉ [0x0#4, 0x1#4, 0x2#4, 0x3#4, 0x4#4, 0x5#4, 0x6#4, 0x7#4, 0xE#4] →
    n ∈ [0x8#4, 0x9#4, 0xA#4, 0xB#4, 0xC#4, 0xD#4, 0xF#4] := by decide

theorem decodeFamily8_error_iff (w : Word) :
    (∃ e, decodeFamily8 w = .error e) ↔ fieldN w ∈ [0x8#4, 0x9#4, 0xA#4, 0xB#4, 0xC#4, 0xD#4, 0xF#4] := by
  unfold decodeFamily8
  split
  case h_10 => simpa using mem_unknown8_of_notMem _ (by simp_all)
  all_goals simp [*]

theorem decodeFamilyE_error_iff (w : Word) :
    (∃ e, decodeFamilyE w = .error e) ↔ fieldKK w ≠ 0x9E#8 ∧ fieldKK w ≠ 0xA1#8 := by
  unfold decodeFamilyE
  split <;> simp_all

theorem decodeFamilyF_error_iff (w : Word) :
    (∃ e, decodeFamilyF w = .error e) ↔
      fieldKK w ∉ [0x07#8, 0x0A#8, 0x15#8, 0x18#8, 0x1E#8, 0x29#8, 0x33#8, 0x55#8, 0x65#8] := by
  unfold decodeFamilyF
  split <;> simp_all

/-- Settles O5: only the four families can refuse a word, each by the subfield that selects in it. -/
theorem unknownWordsAreExactlyTheListedOnes : Obligations.UnknownWordsAreExactlyTheListedOnes := by
  intro w
  unfold decodeWord
  split
  case h_1 hop => simp [hop, decodeFamily0_error_iff]
  case h_9 hop => simp [hop, decodeFamily8_error_iff]
  case h_15 hop => simp [hop, decodeFamilyE_error_iff]
  case h_16 =>
    have hop : opcodeOf w = 0xF#4 := eq_F_of_notMem _ (by simp_all)
    simp [hop, decodeFamilyF_error_iff]
  all_goals simp [*]

/-! ## The rows of R74, field by field -/

/-- The row selects a word of this opcode nibble, kk and n: its mask looks at the opcode, and in a family at kk or n. -/
def OpcodeRow.selects (r : OpcodeRow) (op : Nibble) (kk : Byte) (n : Nibble) : Bool :=
  op == opcodeOf r.value &&
    (r.mask == 0xF000 || r.mask == 0xF0FF && kk == fieldKK r.value || r.mask == 0xF00F && n == fieldN r.value)

/-- Each row has one of the three masks, and its value lies within the mask. -/
theorem opcodeMap_masks : ∀ r ∈ opcodeMap,
    r.mask = 0xF000 ∧ r.value = packNNN (opcodeOf r.value) 0 ∨
    r.mask = 0xF0FF ∧ r.value = packXKK (opcodeOf r.value) 0 (fieldKK r.value) ∨
    r.mask = 0xF00F ∧ r.value = packXYN (opcodeOf r.value) 0 0 (fieldN r.value) := by decide

/-- Matching a row of the map is being selected by it, for each of the three masks. -/
theorem matchesWord_eq_selects (w : Word) {r : OpcodeRow} (hr : r ∈ opcodeMap) :
    r.matchesWord w = r.selects (opcodeOf w) (fieldKK w) (fieldN w) := by
  rw [OpcodeRow.matchesWord, OpcodeRow.selects, Bool.eq_iff_iff, beq_iff_eq]
  rcases opcodeMap_masks r hr with ⟨hm, hv⟩ | ⟨hm, hv⟩ | ⟨hm, hv⟩
  · rw [hm, hv]
    exact (and_F000_eq_iff w _).trans (by simp)
  · rw [hm, hv]
    exact (and_F0FF_eq_iff w _ _).trans (by simp)
  · rw [hm, hv]
    exact (and_F00F_eq_iff w _ _).trans (by simp)

/-- The numbers of the rows that select these fields. -/
def selectedRows (op : Nibble) (kk : Byte) (n : Nibble) : List Nat :=
  (opcodeMap.filter (fun r => r.selects op kk n)).map (fun r => r.number)

theorem matchingRows_eq_selectedRows (w : Word) :
    (opcodeMap.filter (fun r => r.matchesWord w)).map (fun r => r.number) =
      selectedRows (opcodeOf w) (fieldKK w) (fieldN w) := by
  rw [selectedRows, List.filter_congr fun r hr => matchesWord_eq_selects w hr]

/-- The fields of an instruction's word select its own row alone. -/
theorem selectedRows_encode (i : Instr) :
    selectedRows (opcodeOf (encode i)) (fieldKK (encode i)) (fieldN (encode i)) = [i.rowNumber] := by
  cases i <;> simp [encode] <;> rfl

/-- The fields that R75 lists select no row. -/
theorem selectedRows_of_error {w : Word} {e : DecodeError} (h : decodeWord w = .error e) :
    selectedRows (opcodeOf w) (fieldKK w) (fieldN w) = [] := by
  rcases (unknownWordsAreExactlyTheListedOnes w).mp ⟨e, h⟩ with ⟨hop, hkk⟩ | ⟨hop, hn⟩ | ⟨hop, hkk⟩ | ⟨hop, hkk⟩
  · rw [hop]
    simp_all [selectedRows, opcodeMap, OpcodeRow.selects, opcodeOf, fieldKK]
  · rw [hop]
    generalize fieldN w = n at hn
    fin_cases hn <;> rfl
  · rw [hop]
    simp_all [selectedRows, opcodeMap, OpcodeRow.selects, opcodeOf, fieldKK]
  · rw [hop]
    simp_all [selectedRows, opcodeMap, OpcodeRow.selects, opcodeOf, fieldKK]

/-- Settles O4: the rows that match are the rows the fields select; a word that decodes has the fields of its
instruction's word, the others have those of O5. -/
theorem decoderAgreesWithTheOpcodeMap : Obligations.DecoderAgreesWithTheOpcodeMap := by
  intro w
  rw [matchingRows_eq_selectedRows]
  cases hdec : decodeWord w with
  | ok i =>
    rw [← encode_of_decodeWord hdec]
    exact selectedRows_encode i
  | error e => exact selectedRows_of_error hdec

end Sys2Proof
end

section
/-!
SUPPORT and the proofs of O6 and O7 (spec/30_encoding.md R76, R78): the text of each shape of line, what the assembler
reads from it, and the fields that neither the text nor the meaning shows.
-/

namespace Sys2Proof

open Sys2Proof.Machine

/-- Settles O7: the meanings of these six do not mention the field. -/
theorem unexaminedFieldsHaveNoEffect : Obligations.UnexaminedFieldsHaveNoEffect :=
  fun _ _ _ _ _ => ⟨rfl, rfl, rfl, rfl, rfl, rfl⟩

/-! ## What a printed number reads as, by the width of its field -/

theorem asByte_printed (kk : Byte) : (AsmOperand.hex 2 kk.toNat).asByte = some kk := by
  simp [AsmOperand.asByte]

theorem asAddr_printed (nnn : Addr12) : (AsmOperand.hex 3 nnn.toNat).asAddr = some nnn := by
  simp [AsmOperand.asAddr]

theorem asNibble_printed (n : Nibble) : (AsmOperand.dec n.toNat).asNibble = some n := by
  have := n.isLt
  simp [AsmOperand.asNibble, this]

/-! ## A printed line: a mnemonic and no to three operands -/

/-- The mnemonic that the line of an instruction begins with (the column "assembler form" of R74). -/
@[simp] def Instr.mnemonic : Instr → List Char
  | .cls _ => ['C', 'L', 'S']
  | .ret _ => ['R', 'E', 'T']
  | .jp _ | .jpV0 _ => ['J', 'P']
  | .call _ => ['C', 'A', 'L', 'L']
  | .seImm _ _ | .seReg _ _ _ => ['S', 'E']
  | .sneImm _ _ | .sneReg _ _ _ => ['S', 'N', 'E']
  | .addImm _ _ | .addReg _ _ | .addI _ => ['A', 'D', 'D']
  | .orReg _ _ => ['O', 'R']
  | .andReg _ _ => ['A', 'N', 'D']
  | .xorReg _ _ => ['X', 'O', 'R']
  | .subReg _ _ => ['S', 'U', 'B']
  | .subnReg _ _ => ['S', 'U', 'B', 'N']
  | .shr _ _ => ['S', 'H', 'R']
  | .shl _ _ => ['S', 'H', 'L']
  | .rnd _ _ => ['R', 'N', 'D']
  | .drw _ _ _ => ['D', 'R', 'W']
  | .skp _ => ['S', 'K', 'P']
  | .sknp _ => ['S', 'K', 'N', 'P']
  | .ldImm _ _ | .ldReg _ _ | .ldI _ | .ldVxDt _ | .ldVxK _ | .ldDtVx _ | .ldStVx _ | .ldF _ | .ldB _ | .storeRegs _
  | .loadRegs _ => ['L', 'D']

theorem space_notMem_mnemonic (i : Instr) : ' ' ∉ i.mnemonic := by
  cases i <;> simp

section
variable {i : Instr} {a b d : List Char} {r s t : AsmOperand}

theorem assemble_printed_none (htext : (disassemble i).toList = i.mnemonic) (hop : assembleOp i.mnemonic [] = some i.shown) :
    assemble (disassemble i).toList = some i.shown := by
  rw [htext, assemble_none (space_notMem_mnemonic i), hop]

theorem assemble_printed_one (htext : (disassemble i).toList = i.mnemonic ++ ' ' :: a) (ha : Reads a r)
    (hop : assembleOp i.mnemonic [r] = some i.shown) : assemble (disassemble i).toList = some i.shown := by
  rw [htext, assemble_one (space_notMem_mnemonic i) ha, hop]

theorem assemble_printed_two (htext : (disassemble i).toList = i.mnemonic ++ ' ' :: (a ++ ',' :: ' ' :: b))
    (ha : Reads a r) (hb : Reads b s) (hop : assembleOp i.mnemonic [r, s] = some i.shown) :
    assemble (disassemble i).toList = some i.shown := by
  rw [htext, assemble_two (space_notMem_mnemonic i) ha hb, hop]

theorem assemble_printed_three
    (htext : (disassemble i).toList = i.mnemonic ++ ' ' :: (a ++ ',' :: ' ' :: (b ++ ',' :: ' ' :: d)))
    (ha : Reads a r) (hb : Reads b s) (hd : Reads d t) (hop : assembleOp i.mnemonic [r, s, t] = some i.shown) :
    assemble (disassemble i).toList = some i.shown := by
  rw [htext, assemble_three (space_notMem_mnemonic i) ha hb hd, hop]

end

/-- By the shape of the line: the operands as printed, and what `assembleOp` makes of them. -/
theorem assemble_disassemble (i : Instr) : assemble (disassemble i).toList = some i.shown := by
  cases i with
  | cls | ret => exact assemble_printed_none (by simp [disassemble]) rfl
  | jp nnn | call nnn =>
    exact assemble_printed_one (by simp [disassemble]) (reads_hexAddr nnn)
      (congrArg (Option.map _) (asAddr_printed nnn))
  | skp x | sknp x | shr x | shl x =>
    exact assemble_printed_one (by simp [disassemble]) (reads_regName x) rfl
  | seImm x kk | sneImm x kk | ldImm x kk | addImm x kk | rnd x kk =>
    exact assemble_printed_two (by simp [disassemble]) (reads_regName x) (reads_hexByte kk)
      (congrArg (Option.map _) (asByte_printed kk))
  | seReg x y | sneReg x y | ldReg x y | orReg x y | andReg x y | xorReg x y | addReg x y | subReg x y | subnReg x y =>
    exact assemble_printed_two (by simp [disassemble]) (reads_regName x) (reads_regName y) rfl
  | ldI nnn =>
    exact assemble_printed_two (by simp [disassemble]) reads_index (reads_hexAddr nnn)
      (congrArg (Option.map _) (asAddr_printed nnn))
  | jpV0 nnn =>
    exact assemble_printed_two (by simp [disassemble]; rfl) (reads_regName 0) (reads_hexAddr nnn)
      (congrArg (Option.map _) (asAddr_printed nnn))
  | drw x y n =>
    exact assemble_printed_three (by simp [disassemble]) (reads_regName x) (reads_regName y) (reads_decimal n)
      (congrArg (Option.map _) (asNibble_printed n))
  | ldVxDt x => exact assemble_printed_two (by simp [disassemble]) (reads_regName x) reads_delay rfl
  | ldVxK x => exact assemble_printed_two (by simp [disassemble]) (reads_regName x) reads_key rfl
  | loadRegs x => exact assemble_printed_two (by simp [disassemble]) (reads_regName x) reads_indirect rfl
  | ldDtVx x => exact assemble_printed_two (by simp [disassemble]) reads_delay (reads_regName x) rfl
  | ldStVx x => exact assemble_printed_two (by simp [disassemble]) reads_sound (reads_regName x) rfl
  | addI x => exact assemble_printed_two (by simp [disassemble]) reads_index (reads_regName x) rfl
  | ldF x => exact assemble_printed_two (by simp [disassemble]) reads_font (reads_regName x) rfl
  | ldB x => exact assemble_printed_two (by simp [disassemble]) reads_bcd (reads_regName x) rfl
  | storeRegs x => exact assemble_printed_two (by simp [disassemble]) reads_indirect (reads_regName x) rfl

theorem assembled_shown (i : Instr) : i.shown.assembled = true := by
  cases i <;> rfl

/-- No meaning reads a field that the text does not show (R76). -/
theorem exec_shown (i : Instr) (s : State) : exec i.shown s = exec i s := by
  cases i <;> rfl

/-- Settles O6: the line printed reads back as the shown form, which an assembler emits and which has the same meaning. -/
theorem assemblerReadsWhatTheDisassemblerPrints : Obligations.AssemblerReadsWhatTheDisassemblerPrints :=
  fun i => ⟨assemble_disassemble i, assembled_shown i, exec_shown i⟩

end Sys2Proof
end

section
/-!
SUPPORT and the proofs of O51, O52 and O54: the footprint of every instruction and the proof that it stays inside it, said
once; that every instruction answers a next state, and that only the key skips read the key levels.
-/

namespace Sys2Proof.Machine

/-! ## Frames of the updates -/

theorem Frame.trans {f : Footprint} {s t u : State} (h : Frame f s t) (k : Frame f t u) : Frame f s u where
  regs r hr := (k.regs r hr).trans (h.regs r hr)
  index hf := (k.index hf).trans (h.index hf)
  mem a ha := (k.mem a ha).trans (h.mem a ha)
  stack hf := ⟨(k.stack hf).1.trans (h.stack hf).1, (k.stack hf).2.trans (h.stack hf).2⟩
  dt hf := (k.dt hf).trans (h.dt hf)
  st hf := (k.st hf).trans (h.st hf)
  screen hf y x := (k.screen hf y x).trans (h.screen hf y x)
  run hf := (k.run hf).trans (h.run hf)
  fault hf := ⟨(k.fault hf).1.trans (h.fault hf).1, (k.fault hf).2.trans (h.fault hf).2⟩
  env hf := (k.env hf).trans (h.env hf)
  inputs := ⟨k.inputs.1.trans h.inputs.1, k.inputs.2.1.trans h.inputs.2.1, k.inputs.2.2.trans h.inputs.2.2⟩
  diags := k.diags.trans h.diags

theorem State.frame_advance_skipIf (s : State) (c : Bool) : Frame {} s (s.advance.skipIf c) :=
  s.advance_skipIf c ▸ s.frame_setPc _

theorem State.frame_advance_setDisp_setFlag (s : State) (d : Display) (f : Bool) :
    Frame { regs := [0xF], screen := true } s ((s.advance.setDisp d).setFlag f) := by
  constructor <;> simp +contextual [State.getV_setFlag]

theorem State.frame_advance_setV_setEnv_afterRnd (s : State) (x : Nibble) (b : Byte) :
    Frame { regs := [x], draw := true } s ((s.advance.setV x b).setEnv s.env.afterRnd) := by
  constructor <;> simp +contextual [State.getV_setV]

theorem State.frame_advance_setDt (s : State) (b : Byte) : Frame { dt := true } s (s.advance.setDt b) := by
  constructor <;> simp

theorem State.frame_advance_setSt (s : State) (b : Byte) : Frame { st := true } s (s.advance.setSt b) := by
  constructor <;> simp

theorem State.frame_setRun (s : State) (r : RunState) : Frame { run := true } s (s.setRun r) := by
  constructor <;> simp

theorem State.frame_raiseFault (s : State) (c : Cause) : Frame { run := true, fault := true } s (s.raiseFault c) := by
  constructor <;> simp

/-- PC, SP and S together are within the footprint of a push and of a pop. -/
theorem State.frame_setStack (s : State) (pc : Word) (sp : Fin 17) (stack : Vector Word 16) :
    Frame { stack := true } s { s with pc := pc, sp := sp, stack := stack } where
  regs _ _ := rfl
  index _ := rfl
  mem _ _ := rfl
  stack h := nomatch h
  dt _ := rfl
  st _ := rfl
  screen _ _ _ := rfl
  run _ := rfl
  fault _ := ⟨rfl, rfl⟩
  env _ := rfl
  inputs := ⟨rfl, rfl, rfl⟩
  diags := rfl

/-- The addresses of the next `n` bytes from `a` on. -/
def addrsFrom (a : Word) (n : Nat) : List Word := (List.range n).map (fun k => a + BitVec.ofNat 16 k)

theorem State.frame_advance_writeBytes (s : State) (a : Word) (bs : List Byte) :
    Frame { stores := addrsFrom a bs.length } s (s.advance.writeBytes a bs) := by
  constructor
  case mem =>
    intro c hc
    refine State.readByte_writeBytes_of_ne _ _ _ fun k hk => hc _ ?_
    exact List.mem_map_of_mem (List.mem_range.mpr hk)
  all_goals simp

/-- The numbers of the first `n` registers. -/
def regsBelow (n : Nat) : List Nibble := (List.range n).map (fun k => BitVec.ofNat 4 k)

theorem State.frame_advance_setRegsFrom0 (s : State) (bs : List Byte) :
    Frame { regs := regsBelow bs.length } s (s.advance.setRegsFrom0 bs) := by
  constructor
  case regs =>
    intro k hk
    rw [State.getV_setRegsFrom0, dif_neg, State.advance_getV]
    exact fun hlt => hk (List.mem_map.mpr ⟨k.toNat, List.mem_range.mpr hlt, BitVec.ofNat_toNat ..⟩)
  all_goals simp

/-! ## The footprint of every instruction -/

/-- What each instruction may write beside PC. CALL and RET write the stack, or fault instead (R201). -/
def footprint (s : State) : Instr → Footprint
  | .jp _ | .jpV0 _ | .seImm _ _ | .sneImm _ _ | .seReg _ _ _ | .sneReg _ _ _ | .skp _ | .sknp _ => {}
  | .cls _ => { screen := true }
  | .ret _ => if s.sp.val = 0 then { run := true, fault := true } else { stack := true }
  | .call _ => if s.sp.val = 16 then { run := true, fault := true } else { stack := true }
  | .ldImm x _ | .addImm x _ | .ldReg x _ | .orReg x _ | .andReg x _ | .xorReg x _ | .ldVxDt x => { regs := [x] }
  | .addReg x _ | .subReg x _ | .shr x _ | .subnReg x _ | .shl x _ => { regs := [x, 0xF] }
  | .ldI _ | .addI _ | .ldF _ => { index := true }
  | .rnd x _ => { regs := [x], draw := true }
  | .drw _ _ _ => { regs := [0xF], screen := true }
  | .ldVxK _ => { run := true }
  | .ldDtVx _ => { dt := true }
  | .ldStVx _ => { st := true }
  | .ldB _ => { stores := addrsFrom s.i 3 }
  | .storeRegs x => { stores := addrsFrom s.i (x.toNat + 1) }
  | .loadRegs x => { regs := regsBelow (x.toNat + 1) }

theorem execRet_frame (x : Nibble) {s t : State} (h : execRet x s = .next t) : Frame (footprint s (.ret x)) s t := by
  by_cases hempty : s.sp.val = 0
  · obtain rfl := Host.Outcome.next.inj ((execRet_of_empty x hempty).symm.trans h)
    simpa only [footprint, if_pos hempty] using s.frame_raiseFault _
  · obtain rfl := Host.Outcome.next.inj ((execRet_of_entry x hempty).symm.trans h)
    simpa only [footprint, if_neg hempty] using s.frame_setStack _ _ s.stack

theorem execCall_frame (nnn : Addr12) {s t : State} (h : execCall nnn s = .next t) :
    Frame (footprint s (.call nnn)) s t := by
  by_cases hfull : s.sp.val = 16
  · obtain rfl := Host.Outcome.next.inj ((execCall_of_full nnn hfull).symm.trans h)
    simpa only [footprint, if_pos hfull] using s.frame_raiseFault _
  · obtain rfl := Host.Outcome.next.inj ((execCall_of_room nnn (by omega)).symm.trans h)
    simpa only [footprint, if_neg hfull] using s.frame_setStack _ _ _

/-- Every instruction stays inside its footprint. -/
theorem exec_frame {i : Instr} {s t : State} (h : exec i s = .next t) : Frame (footprint s i) s t := by
  cases i with
  | ret x => exact execRet_frame x h
  | call nnn => exact execCall_frame nnn h
  | jp | jpV0 =>
    obtain rfl := Host.Outcome.next.inj h
    exact s.frame_setPc _
  | seImm | sneImm | seReg | sneReg | skp | sknp =>
    obtain rfl := Host.Outcome.next.inj h
    exact s.frame_advance_skipIf _
  | cls =>
    obtain rfl := Host.Outcome.next.inj h
    exact s.frame_advance_setDisp _
  | drw =>
    obtain rfl := Host.Outcome.next.inj h
    exact s.frame_advance_setDisp_setFlag _ _
  | ldImm | addImm | ldReg | orReg | andReg | xorReg | ldVxDt =>
    obtain rfl := Host.Outcome.next.inj h
    exact s.frame_advance_setV _ _
  | addReg | subReg | shr | subnReg | shl =>
    obtain rfl := Host.Outcome.next.inj h
    exact s.frame_advance_setV_setFlag _ _ _
  | ldI | addI | ldF =>
    obtain rfl := Host.Outcome.next.inj h
    exact s.frame_advance_setI _
  | rnd =>
    obtain rfl := Host.Outcome.next.inj h
    exact s.frame_advance_setV_setEnv_afterRnd _ _
  | ldVxK =>
    obtain rfl := Host.Outcome.next.inj h
    exact s.frame_setRun _
  | ldDtVx =>
    obtain rfl := Host.Outcome.next.inj h
    exact s.frame_advance_setDt _
  | ldStVx =>
    obtain rfl := Host.Outcome.next.inj h
    exact s.frame_advance_setSt _
  | ldB x =>
    obtain rfl := Host.Outcome.next.inj h
    exact s.frame_advance_writeBytes s.i (decimalDigits (s.getV x))
  | storeRegs x =>
    obtain rfl := Host.Outcome.next.inj h
    simpa only [footprint, State.length_regsUpTo] using s.frame_advance_writeBytes s.i (s.regsUpTo x)
  | loadRegs x =>
    obtain rfl := Host.Outcome.next.inj h
    simpa only [footprint, State.readBytes, Memory.length_readBytes] using
      s.frame_advance_setRegsFrom0 (s.readBytes s.i (x.toNat + 1))

/-! ## Who may write each part (spec/10_state.md) -/

theorem footprint_index (s : State) {i : Instr} (h : (footprint s i).index = true) :
    (∃ nnn, i = .ldI nnn) ∨ (∃ x, i = .addI x) ∨ ∃ x, i = .ldF x := by
  cases i <;> simp_all [footprint, apply_ite Footprint.index]

theorem footprint_stores (s : State) {i : Instr} (h : (footprint s i).stores ≠ []) :
    (∃ x, i = .ldB x) ∨ ∃ x, i = .storeRegs x := by
  cases i <;> simp_all [footprint, apply_ite Footprint.stores]

theorem footprint_stack (s : State) {i : Instr} (h : (footprint s i).stack = true) :
    (∃ nnn, i = .call nnn) ∨ ∃ x, i = .ret x := by
  cases i <;> simp_all [footprint]

theorem footprint_dt (s : State) {i : Instr} (h : (footprint s i).dt = true) : ∃ x, i = .ldDtVx x := by
  cases i <;> simp_all [footprint, apply_ite Footprint.dt]

theorem footprint_st (s : State) {i : Instr} (h : (footprint s i).st = true) : ∃ x, i = .ldStVx x := by
  cases i <;> simp_all [footprint, apply_ite Footprint.st]

theorem footprint_screen (s : State) {i : Instr} (h : (footprint s i).screen = true) :
    (∃ x, i = .cls x) ∨ ∃ x y n, i = .drw x y n := by
  cases i <;> simp_all [footprint, apply_ite Footprint.screen]

/-- Settles O51: a part that changed is in the instruction's footprint, and the footprint names its writers. -/
theorem eachPartHasOnlyItsWriters : Obligations.EachPartHasOnlyItsWriters := by
  intro i s t h
  have hframe := exec_frame h
  refine ⟨fun hi => footprint_index s ?_, fun ⟨a, ha⟩ => footprint_stores s ?_, fun hs => footprint_stack s ?_,
    fun hd => footprint_dt s ?_, fun hs => footprint_st s ?_, fun ⟨p, q, hp⟩ => footprint_screen s ?_⟩
  · exact eq_true_of_ne_false fun hf => hi (hframe.index hf)
  · exact fun hf => ha (hframe.mem a (by simp [hf]))
  · exact eq_true_of_ne_false fun hf => hs.elim (· (hframe.stack hf).1) (· (hframe.stack hf).2)
  · exact eq_true_of_ne_false fun hf => hd (hframe.dt hf)
  · exact eq_true_of_ne_false fun hf => hs (hframe.st hf)
  · exact eq_true_of_ne_false fun hf => hp (hframe.screen hf p q)

/-! ## Every instruction answers a next state (log 25) -/

theorem exec_total (i : Instr) (s : State) : ∃ t, exec i s = .next t := by
  cases i with
  | ret x =>
    by_cases hempty : s.sp.val = 0
    · exact ⟨_, execRet_of_empty x hempty⟩
    · exact ⟨_, execRet_of_entry x hempty⟩
  | call nnn =>
    by_cases hfull : s.sp.val = 16
    · exact ⟨_, execCall_of_full nnn hfull⟩
    · exact ⟨_, execCall_of_room nnn (by omega)⟩
  | _ => exact ⟨_, rfl⟩

theorem stepEvent_of_not_running {s : State} (h : s.run ≠ .running) : stepEvent s = .next s := by
  unfold stepEvent
  split
  · contradiction
  all_goals rfl

theorem stepEvent_total (s : State) : ∃ t, stepEvent s = .next t := by
  by_cases hrun : s.run = .running
  · cases hdec : decodeWord s.fetchWord with
    | ok i => exact (exec_total i s).imp fun t h => (stepEvent_of_decode_ok hrun hdec).trans h
    | error e => exact ⟨_, stepEvent_of_decode_error hrun hdec⟩
  · exact ⟨s, stepEvent_of_not_running hrun⟩

theorem takeInput_total (e : Input) (s : State) : ∃ t, takeInput e s = .next t := by
  cases e with
  | step => exact stepEvent_total s
  | _ => exact ⟨_, rfl⟩

/-- Settles O54: every input but a Step is a function on states, and every instruction answers a next state. -/
theorem everyStepAnswersANextState : Obligations.EveryStepAnswersANextState :=
  fun s => takeInput_total s.nextInput s.dropInput

/-! ## Who reads the key levels (spec/10_state.md R30) -/

theorem setKeyLevels_afterRnd (levels : BitVec 16) (s : State) :
    (setKeyLevels levels s).env.afterRnd = { s.env.afterRnd with keys := levels } := by
  cases hsupply : s.env.rndSupply <;> simp [setKeyLevels, Env.afterRnd, hsupply]

theorem setKeyLevels_advance_skipIf (levels : BitVec 16) (s : State) (c : Bool) :
    setKeyLevels levels (s.advance.skipIf c) = (setKeyLevels levels s).advance.skipIf c := by
  cases c <;> rfl

theorem exec_setKeyLevels {i : Instr} (levels : BitVec 16) {s t : State} (hskp : ∀ x, i ≠ .skp x)
    (hsknp : ∀ x, i ≠ .sknp x) (h : exec i s = .next t) :
    exec i (setKeyLevels levels s) = .next (setKeyLevels levels t) := by
  cases i with
  | skp x => exact absurd rfl (hskp x)
  | sknp x => exact absurd rfl (hsknp x)
  | ret x =>
    by_cases hempty : s.sp.val = 0
    · obtain rfl := Host.Outcome.next.inj ((execRet_of_empty x hempty).symm.trans h)
      exact execRet_of_empty x hempty
    · obtain rfl := Host.Outcome.next.inj ((execRet_of_entry x hempty).symm.trans h)
      exact execRet_of_entry x hempty
  | call nnn =>
    by_cases hfull : s.sp.val = 16
    · obtain rfl := Host.Outcome.next.inj ((execCall_of_full nnn hfull).symm.trans h)
      exact execCall_of_full nnn hfull
    · obtain rfl := Host.Outcome.next.inj ((execCall_of_room nnn (by omega)).symm.trans h)
      exact execCall_of_room nnn (s := setKeyLevels levels s) (show s.sp.val < 16 by omega)
  | rnd x kk =>
    obtain rfl := Host.Outcome.next.inj h
    exact congrArg (fun e => Host.Outcome.next (State.setEnv _ e)) (setKeyLevels_afterRnd levels s)
  | seImm | sneImm | seReg | sneReg =>
    obtain rfl := Host.Outcome.next.inj h
    exact congrArg Host.Outcome.next (setKeyLevels_advance_skipIf levels s _).symm
  | _ =>
    obtain rfl := Host.Outcome.next.inj h
    rfl

/-- Settles O52: RND draws from the rest of the environment, and no other instruction looks at it. -/
theorem onlyKeySkipsReadTheKeys : Obligations.OnlyKeySkipsReadTheKeys := by
  intro i levels s hskp hsknp
  obtain ⟨t, h⟩ := exec_total i s
  exact ⟨t, h, exec_setKeyLevels levels hskp hsknp h⟩

end Sys2Proof.Machine
end

section
/-!
SUPPORT and the proofs of O55, O56 and O57: the invariant of spec/10_state.md and 60_exceptions.md holds at reset, every
input keeps it, and a run of any length stays inside it.
-/

namespace Sys2Proof.Machine

/-! ## The inputs in each kind of run state (spec/60_exceptions.md R207, R210; 45_timers_keys_random.md R175) -/

/-- A program is running or waits for a key: Tick and Halt have an effect. -/
def State.Live (s : State) : Prop := s.run = .running ∨ ∃ x, s.run = .awaitingKey x

/-- Nothing runs: Tick and Halt have no effect. -/
def State.Stopped (s : State) : Prop := s.run = .idle ∨ ∃ c, s.run = .halted c

theorem State.live_or_stopped (s : State) : s.Live ∨ s.Stopped := by
  cases hrun : s.run with
  | idle => exact .inr (.inl hrun)
  | running => exact .inl (.inl hrun)
  | awaitingKey x => exact .inl (.inr ⟨x, hrun⟩)
  | halted c => exact .inr (.inr ⟨c, hrun⟩)

theorem tick_of_live {s : State} (h : s.Live) : tick s = (s.setDt (decTimer s.dt)).setSt (decTimer s.st) := by
  rcases h with hrun | ⟨x, hrun⟩ <;> simp only [tick, hrun]

theorem tick_of_stopped {s : State} (h : s.Stopped) : tick s = s := by
  rcases h with hrun | ⟨c, hrun⟩ <;> simp only [tick, hrun]

theorem haltBlock_of_live {s : State} (h : s.Live) : haltBlock s = s.raiseFault .externalHalt := by
  rcases h with hrun | ⟨x, hrun⟩ <;> simp only [haltBlock, hrun]

theorem haltBlock_of_stopped {s : State} (h : s.Stopped) : haltBlock s = s := by
  rcases h with hrun | ⟨c, hrun⟩ <;> simp only [haltBlock, hrun]

theorem keyPress_of_awaiting (k : Nibble) {s : State} {x : Nibble} (h : s.run = .awaitingKey x) :
    keyPress k s = ((s.setV x (k.setWidth 8)).advance).setRun .running := by
  simp only [keyPress, h]

theorem keyPress_of_not_awaiting (k : Nibble) {s : State} (h : ∀ x, s.run ≠ .awaitingKey x) : keyPress k s = s := by
  unfold keyPress
  split
  · exact absurd ‹_› (h _)
  all_goals rfl

theorem loadImage_of_fits {image : List Byte} (s : State) (h : image.length ≤ 3584) :
    loadImage image s = (s.init.writeBytes Config.loadBase image).setRun .running :=
  if_pos ((imageFits_iff image).mpr h)

theorem loadImage_of_overlarge {image : List Byte} (s : State) (h : 3584 < image.length) :
    loadImage image s = s.init.raiseFault .programTooLarge :=
  if_neg (mt (imageFits_iff image).mp (Nat.not_le_of_lt h))

/-! ## The invariant in each kind of run state -/

/-- In Running and AwaitingKey the invariant asks for canonical memory and a clear fault record, no more. -/
theorem stateInv_of_live {s : State} (hmem : s.mem.wf = true) (hcause : s.faultCause = 0) (hpc : s.faultPc = 0)
    (hlive : s.Live) : StateInv s := by
  rcases hlive with hrun | ⟨x, hrun⟩
  all_goals exact {
    memory := hmem
    faultRecord := by simp only [FaultRecordOk, hrun]; exact ⟨hcause, hpc⟩
    frozenStack := by simp [FrozenStackOk, hrun]
    idle := by simp [hrun]
    failedLoad := by simp [hrun] }

/-- Entering Halted, but for a failed load, asks for canonical memory and, after a stack fault, a stack that is full or
empty. -/
theorem stateInv_raiseFault {s : State} {c : Cause} (hmem : s.mem.wf = true) (hc : c ≠ .programTooLarge)
    (hfull : c = .stackOverflow → s.sp.val = 16) (hempty : c = .stackUnderflow → s.sp.val = 0) :
    StateInv (s.raiseFault c) where
  memory := hmem
  faultRecord := ⟨rfl, rfl⟩
  frozenStack := ⟨fun h => hfull (RunState.halted.inj h), fun h => hempty (RunState.halted.inj h)⟩
  idle h := nomatch h
  failedLoad h := absurd (RunState.halted.inj h) hc

theorem StateInv.clear_of_live {s : State} (h : StateInv s) (hlive : s.Live) :
    s.faultCause = 0 ∧ s.faultPc = 0 := by
  have hrecord := h.faultRecord
  rcases hlive with hrun | ⟨x, hrun⟩ <;> simpa only [FaultRecordOk, hrun] using hrecord

/-- The invariant looks at the environment's font alone. -/
theorem StateInv.setEnv {s : State} (h : StateInv s) {e : Env} (hfont : e.font = s.env.font) : StateInv (s.setEnv e) where
  memory := h.memory
  faultRecord := h.faultRecord
  frozenStack := h.frozenStack
  idle hrun := by
    have hs : powerOnReset s = s := h.idle hrun
    have hcomm : powerOnReset (s.setEnv e) = (powerOnReset s).setEnv e := by
      simp [powerOnReset, State.init, State.setEnv, State.setRun, hfont]
    rw [hcomm, hs]
  failedLoad hrun := by
    have hs : s.init.raiseFault .programTooLarge = s := h.failedLoad hrun
    have hcomm : (s.setEnv e).init.raiseFault .programTooLarge = (s.init.raiseFault .programTooLarge).setEnv e := by
      simp [State.init, State.setEnv, State.raiseFault, hfont]
    rw [hcomm, hs]

theorem StateInv.dropInput {s : State} (h : StateInv s) : StateInv s.dropInput := h.setEnv rfl

/-! ## A Step event -/

/-- An instruction that writes memory writes bytes; the others leave it. -/
theorem exec_wf {i : Instr} {s t : State} (h : exec i s = .next t) (hwf : s.mem.wf = true) : t.mem.wf = true := by
  cases i with
  | ret x =>
    by_cases hempty : s.sp.val = 0
    · obtain rfl := Host.Outcome.next.inj ((execRet_of_empty x hempty).symm.trans h)
      exact hwf
    · obtain rfl := Host.Outcome.next.inj ((execRet_of_entry x hempty).symm.trans h)
      exact hwf
  | call nnn =>
    by_cases hfull : s.sp.val = 16
    · obtain rfl := Host.Outcome.next.inj ((execCall_of_full nnn hfull).symm.trans h)
      exact hwf
    · obtain rfl := Host.Outcome.next.inj ((execCall_of_room nnn (by omega)).symm.trans h)
      exact hwf
  | seImm | sneImm | seReg | sneReg | skp | sknp =>
    obtain rfl := Host.Outcome.next.inj h
    rw [State.skipIf_mem]
    exact hwf
  | ldB | storeRegs =>
    obtain rfl := Host.Outcome.next.inj h
    exact Memory.wf_writeBytes hwf _ _
  | _ =>
    obtain rfl := Host.Outcome.next.inj h
    exact hwf

/-- Only CALL with the stack full and RET with it empty write the fault record. -/
theorem footprint_fault {s : State} {i : Instr} (h : (footprint s i).fault = true) :
    (∃ nnn, i = .call nnn ∧ s.sp.val = 16) ∨ ∃ x, i = .ret x ∧ s.sp.val = 0 := by
  cases i <;> simp_all [footprint, apply_ite Footprint.fault]

/-- An instruction either faults, and leaves a fault state, or keeps the fault record clear in a live state. -/
theorem exec_keeps_inv {i : Instr} {s t : State} (hinv : StateInv s) (hrun : s.run = .running) (h : exec i s = .next t) :
    StateInv t := by
  cases hfault : (footprint s i).fault with
  | true =>
    rcases footprint_fault hfault with ⟨nnn, rfl, hfull⟩ | ⟨x, rfl, hempty⟩
    · obtain rfl := Host.Outcome.next.inj ((execCall_of_full nnn hfull).symm.trans h)
      exact stateInv_raiseFault hinv.memory nofun (fun _ => hfull) nofun
    · obtain rfl := Host.Outcome.next.inj ((execRet_of_empty x hempty).symm.trans h)
      exact stateInv_raiseFault hinv.memory nofun nofun (fun _ => hempty)
  | false =>
    obtain ⟨hcause, hpc⟩ := hinv.clear_of_live (.inl hrun)
    obtain ⟨hcause', hpc'⟩ := (exec_frame h).fault hfault
    refine stateInv_of_live (exec_wf h hinv.memory) (hcause'.trans hcause) (hpc'.trans hpc) ?_
    rcases exec_run h with hkept | ⟨x, -, ht⟩ | ⟨nnn, rfl, hfull, -⟩ | ⟨x, rfl, hempty, -⟩
    · exact .inl (hkept.trans hrun)
    · exact .inr ⟨x, ht⟩
    · simp [footprint, hfull] at hfault
    · simp [footprint, hempty] at hfault

theorem stepEvent_keeps_inv {s t : State} (hinv : StateInv s) (h : stepEvent s = .next t) : StateInv t := by
  by_cases hrun : s.run = .running
  · cases hdec : decodeWord s.fetchWord with
    | ok i => exact exec_keeps_inv hinv hrun ((stepEvent_of_decode_ok hrun hdec).symm.trans h)
    | error e =>
      obtain rfl := Host.Outcome.next.inj ((stepEvent_of_decode_error hrun hdec).symm.trans h)
      obtain ⟨hcause, hpc⟩ := hinv.clear_of_live (.inl hrun)
      exact stateInv_of_live hinv.memory hcause hpc (.inl hrun)
  · obtain rfl := Host.Outcome.next.inj ((stepEvent_of_not_running hrun).symm.trans h)
    exact hinv

/-! ## The other inputs -/

theorem powerOnReset_inv (s : State) : StateInv (powerOnReset s) where
  memory := Memory.wf_initial _
  faultRecord := ⟨rfl, rfl⟩
  frozenStack := ⟨nofun, nofun⟩
  idle _ := rfl
  failedLoad := nofun

theorem loadImage_inv (image : List Byte) (s : State) : StateInv (loadImage image s) := by
  rcases Nat.lt_or_ge 3584 image.length with hlarge | hfits
  · rw [loadImage_of_overlarge s hlarge]
    exact {
      memory := Memory.wf_initial _
      faultRecord := ⟨rfl, rfl⟩
      frozenStack := ⟨nofun, nofun⟩
      idle := nofun
      failedLoad := fun _ => rfl }
  · rw [loadImage_of_fits s hfits]
    exact stateInv_of_live (Memory.wf_writeBytes (Memory.wf_initial _) _ _) rfl rfl (.inl rfl)

theorem tick_keeps_inv {s : State} (hinv : StateInv s) : StateInv (tick s) := by
  rcases s.live_or_stopped with hlive | hstopped
  · obtain ⟨hcause, hpc⟩ := hinv.clear_of_live hlive
    rw [tick_of_live hlive]
    exact stateInv_of_live hinv.memory hcause hpc hlive
  · rwa [tick_of_stopped hstopped]

theorem haltBlock_keeps_inv {s : State} (hinv : StateInv s) : StateInv (haltBlock s) := by
  rcases s.live_or_stopped with hlive | hstopped
  · rw [haltBlock_of_live hlive]
    exact stateInv_raiseFault hinv.memory nofun nofun nofun
  · rwa [haltBlock_of_stopped hstopped]

theorem keyPress_keeps_inv (k : Nibble) {s : State} (hinv : StateInv s) : StateInv (keyPress k s) := by
  by_cases hwait : ∃ x, s.run = .awaitingKey x
  · obtain ⟨x, hrun⟩ := hwait
    obtain ⟨hcause, hpc⟩ := hinv.clear_of_live (.inr ⟨x, hrun⟩)
    rw [keyPress_of_awaiting k hrun]
    exact stateInv_of_live hinv.memory hcause hpc (.inl rfl)
  · rwa [keyPress_of_not_awaiting k (not_exists.mp hwait)]

theorem takeInput_keeps_inv {e : Input} {s t : State} (hinv : StateInv s) (h : takeInput e s = .next t) : StateInv t := by
  cases e with
  | step => exact stepEvent_keeps_inv hinv h
  | powerOnReset => exact Host.Outcome.next.inj h ▸ powerOnReset_inv s
  | load image => exact Host.Outcome.next.inj h ▸ loadImage_inv image s
  | tick => exact Host.Outcome.next.inj h ▸ tick_keeps_inv hinv
  | keyPress k => exact Host.Outcome.next.inj h ▸ keyPress_keeps_inv k hinv
  | halt => exact Host.Outcome.next.inj h ▸ haltBlock_keeps_inv hinv
  | keyLevels levels => exact Host.Outcome.next.inj h ▸ hinv.setEnv rfl

/-! ## Steps and runs -/

/-- Settles O55: reset is a power-on reset of itself. -/
theorem invariantHoldsAtReset : Obligations.InvariantHoldsAtReset := by
  have hreset : powerOnReset State.reset = State.reset := by
    simp [powerOnReset, State.init, State.setRun, State.reset, Memory.initial_defaultFont, Config.loadBase]
  unfold Obligations.InvariantHoldsAtReset
  rw [← hreset]
  exact powerOnReset_inv State.reset

/-- Settles O56: taking the input off the pending ones changes the environment alone, and each input keeps the
invariant. -/
theorem everyStepKeepsTheInvariant : Obligations.EveryStepKeepsTheInvariant :=
  fun _ _ hinv h => takeInput_keeps_inv hinv.dropInput h

theorem run_succ_of_next {M : Host.Core} {s t : M.State} (h : M.step s = .next t) (k : Nat) :
    M.run (k + 1) s = M.run k t := by
  simp only [Host.Core.run, h]

/-- Settles O57, by induction on the number of steps: each step answers a next state (O54), inside the invariant (O56). -/
theorem everyRunGoesOnInsideTheInvariant : Obligations.EveryRunGoesOnInsideTheInvariant := by
  intro k
  induction k with
  | zero => exact fun s hinv => ⟨s, rfl, hinv⟩
  | succ k ih =>
    intro s hinv
    obtain ⟨t, hstep⟩ := everyStepAnswersANextState s
    obtain ⟨u, hrun, hu⟩ := ih t (everyStepKeepsTheInvariant s t hinv hstep)
    exact ⟨u, (run_succ_of_next hstep k).trans hrun, hu⟩

end Sys2Proof.Machine
end

section
/-!
SUPPORT and the proofs of O8, O9, O10 and O53 (spec/40_execution_cycle.md R90, R93, R94): what a step does when its input
is a Step, and what no step changes.
-/

namespace Sys2Proof.Machine

theorem step_of_nextInput {s : State} {e : Input} (h : s.nextInput = e) : step s = takeInput e s.dropInput :=
  h ▸ rfl

/-- Settles O8: the word fetched is the word of the two bytes at PC, and taking the input changes neither. -/
theorem stepRunsTheDecodedInstruction : Obligations.StepRunsTheDecodedInstruction :=
  fun s _ hin hrun hdec => (step_of_nextInput hin).trans (stepEvent_of_decode_ok (s := s.dropInput) hrun hdec)

/-- Settles O9. -/
theorem stepOutsideRunningDoesNothing : Obligations.StepOutsideRunningDoesNothing :=
  fun s hin hrun => (step_of_nextInput hin).trans (stepEvent_of_not_running (s := s.dropInput) hrun)

/-- Settles O10: but for the diagnostic, an unknown word is one write of PC. -/
theorem unknownWordAdvancesAndIsReportedOnce : Obligations.UnknownWordAdvancesAndIsReportedOnce := by
  intro s e hin hrun hdec
  have hstep : step s = .next (s.dropInput.unknownWord s.fetchWord) :=
    (step_of_nextInput hin).trans (stepEvent_of_decode_error (s := s.dropInput) hrun hdec)
  exact ⟨_, hstep, rfl, rfl, s.dropInput.frame_setPc (s.pc + 2)⟩

/-! ## Frames of the events (spec/60_exceptions.md R207, R210; 45_timers_keys_random.md R175) -/

theorem Frame.refl (f : Footprint) (s : State) : Frame f s s := by
  constructor <;> simp

theorem tick_frame (s : State) : Frame { dt := true, st := true } s (tick s) := by
  rcases s.live_or_stopped with hlive | hstopped
  · rw [tick_of_live hlive]
    constructor <;> simp
  · rw [tick_of_stopped hstopped]
    exact .refl _ s

theorem haltBlock_frame (s : State) : Frame { run := true, fault := true } s (haltBlock s) := by
  rcases s.live_or_stopped with hlive | hstopped
  · rw [haltBlock_of_live hlive]
    exact s.frame_raiseFault _
  · rw [haltBlock_of_stopped hstopped]
    exact .refl _ s

theorem keyPress_frame (k : Nibble) {s : State} {x : Nibble} (h : s.run = .awaitingKey x) :
    Frame { regs := [x], run := true } s (keyPress k s) := by
  rw [keyPress_of_awaiting k h]
  constructor <;> simp +contextual [State.getV_setV]

/-! ## Parameters and trace (spec/60_exceptions.md R203) -/

/-- The font parameters are kept, and the trace grows by at most one diagnostic. -/
def KeepsFontAndTrace (s t : State) : Prop :=
  t.env.font = s.env.font ∧ ∃ ds : List Diag, t.diags = s.diags ++ ds ∧ ds.length ≤ 1

theorem keepsFontAndTrace_of_eq {s t : State} (hfont : t.env.font = s.env.font) (hdiags : t.diags = s.diags) :
    KeepsFontAndTrace s t :=
  ⟨hfont, [], by simpa using hdiags, by simp⟩

theorem keepsFontAndTrace_of_frame {f : Footprint} {s t : State} (h : Frame f s t) : KeepsFontAndTrace s t :=
  keepsFontAndTrace_of_eq h.inputs.2.2 h.diags

theorem stepEvent_keepsFontAndTrace {s t : State} (h : stepEvent s = .next t) : KeepsFontAndTrace s t := by
  by_cases hrun : s.run = .running
  · cases hdec : decodeWord s.fetchWord with
    | ok i =>
      have hframe := exec_frame ((stepEvent_of_decode_ok hrun hdec).symm.trans h)
      exact keepsFontAndTrace_of_frame hframe
    | error e =>
      obtain rfl := Host.Outcome.next.inj ((stepEvent_of_decode_error hrun hdec).symm.trans h)
      exact ⟨rfl, [⟨s.pc, s.fetchWord⟩], rfl, le_refl 1⟩
  · obtain rfl := Host.Outcome.next.inj ((stepEvent_of_not_running hrun).symm.trans h)
    exact keepsFontAndTrace_of_eq rfl rfl

theorem takeInput_keepsFontAndTrace {e : Input} {s t : State} (h : takeInput e s = .next t) : KeepsFontAndTrace s t := by
  cases e with
  | step => exact stepEvent_keepsFontAndTrace h
  | powerOnReset | keyLevels =>
    obtain rfl := Host.Outcome.next.inj h
    exact keepsFontAndTrace_of_eq rfl rfl
  | load image =>
    obtain rfl := Host.Outcome.next.inj h
    rcases Nat.lt_or_ge 3584 image.length with hlarge | hfits
    · rw [loadImage_of_overlarge s hlarge]
      exact keepsFontAndTrace_of_eq rfl rfl
    · rw [loadImage_of_fits s hfits]
      exact keepsFontAndTrace_of_eq rfl rfl
  | tick => exact Host.Outcome.next.inj h ▸ keepsFontAndTrace_of_frame (tick_frame s)
  | halt => exact Host.Outcome.next.inj h ▸ keepsFontAndTrace_of_frame (haltBlock_frame s)
  | keyPress k =>
    obtain rfl := Host.Outcome.next.inj h
    by_cases hwait : ∃ x, s.run = .awaitingKey x
    · obtain ⟨x, hrun⟩ := hwait
      exact keepsFontAndTrace_of_frame (keyPress_frame k hrun)
    · rw [keyPress_of_not_awaiting k (not_exists.mp hwait)]
      exact keepsFontAndTrace_of_eq rfl rfl

/-- Settles O53: only an unknown word adds to the trace, and no input changes the font. -/
theorem stepKeepsParametersAndTrace : Obligations.StepKeepsParametersAndTrace :=
  fun s _ h => takeInput_keepsFontAndTrace (s := s.dropInput) h

end Sys2Proof.Machine
end

section
/-!
SUPPORT and the proofs of O11, O17 to O20 and O22 (spec/40_execution_cycle.md R91, 42_control_flow.md): the PC that each
instruction leaves, CALL and RET by what the stack holds, and the skips on two registers.
-/

namespace Sys2Proof.Machine

/-! ## Skips -/

theorem exec_seReg (x y n : Nibble) (s : State) :
    exec (.seReg x y n) s = .next (s.setPc (if s.getV x = s.getV y then s.pc + 4 else s.pc + 2)) := by
  have hskip : exec (.seReg x y n) s = .next (s.advance.skipIf (s.getV x == s.getV y)) := rfl
  simp only [hskip, State.advance_skipIf, beq_iff_eq]

theorem exec_sneReg (x y n : Nibble) (s : State) :
    exec (.sneReg x y n) s = .next (s.setPc (if s.getV x = s.getV y then s.pc + 2 else s.pc + 4)) := by
  have hskip : exec (.sneReg x y n) s = .next (s.advance.skipIf (s.getV x != s.getV y)) := rfl
  simp only [hskip, State.advance_skipIf, bne_iff_ne, ite_not]

/-- Settles O22: each skip is one write of PC, by 4 or by 2 as V[x] and V[y] compare. -/
theorem registerSkips : Obligations.RegisterSkips := fun x y n s =>
  ⟨⟨_, exec_seReg x y n s, s.setPc_pc _, s.frame_setPc _⟩, ⟨_, exec_sneReg x y n s, s.setPc_pc _, s.frame_setPc _⟩⟩

/-! ## CALL and RET -/

/-- Settles O17, by the room on the stack. -/
theorem callPushesTheAdvancedPcOrOverflows : Obligations.CallPushesTheAdvancedPcOrOverflows := by
  intro nnn s
  constructor
  · intro hroom
    exact ⟨_, execCall_of_room nnn hroom, rfl, rfl, toNat_addrOf nnn, s.frame_setStack _ _ _⟩
  · intro hfull
    exact ⟨_, execCall_of_full nnn hfull, rfl, rfl, s.frame_raiseFault _⟩

/-- Settles O18, by the entries on the stack. -/
theorem retPopsOrUnderflows : Obligations.RetPopsOrUnderflows := by
  intro x s
  constructor
  · intro hentry
    exact ⟨_, execRet_of_entry x hentry, rfl, rfl, rfl, s.frame_setStack _ _ s.stack⟩
  · intro hempty
    exact ⟨_, execRet_of_empty x hempty, rfl, rfl, s.frame_raiseFault _⟩

/-- Settles O20: a fault is taken from the state before the instruction. -/
theorem stackFaultIsPrecise : Obligations.StackFaultIsPrecise :=
  fun nnn x _ => ⟨fun hfull => execCall_of_full nnn hfull, fun hempty => execRet_of_empty x hempty⟩

/-- Settles O19: RET pops the entry that CALL pushed. -/
theorem retUndoesCall : Obligations.RetUndoesCall := by
  intro nnn x s hroom
  obtain ⟨t, hcall, hstack, hsp, -, hframe⟩ := (callPushesTheAdvancedPcOrOverflows nnn s).1 hroom
  have hentry : t.sp.val ≠ 0 := by omega
  obtain ⟨u, hret, hpc, husp, -, huframe⟩ := (retPopsOrUnderflows x t).1 hentry
  refine ⟨t, u, hcall, hret, ?_, ?_, hframe.trans huframe⟩
  · simp [hpc, hstack, hsp]
  · exact Fin.ext (by omega)

/-! ## PC after every instruction -/

theorem exec_pc_of_not_redirects {i : Instr} {s t : State} (h : exec i s = .next t) (hplain : i.redirects = false) :
    t.pc = s.pc + 2 := by
  cases i with
  | ret | jp | call | seImm | sneImm | seReg | sneReg | jpV0 | skp | sknp | ldVxK => exact nomatch hplain
  | _ =>
    obtain rfl := Host.Outcome.next.inj h
    rfl

/-- Settles O11: the plain instructions advance; each that redirects has its own target. -/
theorem pcAfterEveryInstruction : Obligations.PcAfterEveryInstruction := by
  intro i s t h
  refine ⟨exec_pc_of_not_redirects h, ?_⟩
  cases i with
  | jp | jpV0 | ldVxK =>
    obtain rfl := Host.Outcome.next.inj h
    rfl
  | call nnn =>
    intro hroom
    obtain rfl := Host.Outcome.next.inj ((execCall_of_room nnn hroom).symm.trans h)
    exact ⟨rfl, Vector.getElem_set_self _⟩
  | ret x =>
    intro hentry
    obtain rfl := Host.Outcome.next.inj ((execRet_of_entry x hentry).symm.trans h)
    rfl
  | seImm | sneImm | seReg | sneReg | skp | sknp =>
    obtain rfl := Host.Outcome.next.inj h
    simp [lowNibble]
  | _ => rfl

end Sys2Proof.Machine
end

section
/-!
SUPPORT and the proofs of O13 to O15 (spec/41_display.md R101 to R105): the points a sprite flips, read from the registers
and memory, and DRW as the flip of exactly these points.
-/

namespace Sys2Proof.Machine

/-- The points that DRW of these operands flips. -/
def State.spritePoints (s : State) (x y n : Nibble) : List (Fin 32 × Fin 64) :=
  Machine.spritePoints (s.getV x).toNat (s.getV y).toNat (s.readBytes s.i n.toNat)

/-- DRW's points: column c of row r for each set bit 7 - c of the byte at I + r, both wrapped (R102, R103). -/
theorem State.mem_spritePoints (s : State) (x y n : Nibble) (p : Fin 32) (q : Fin 64) :
    (p, q) ∈ s.spritePoints x y n ↔
      ∃ r < n.toNat, ∃ c < 8, (s.readByte (s.i + BitVec.ofNat 16 r)).getLsbD (7 - c) = true ∧
        p.val = ((s.getV y).toNat + r) % 32 ∧ q.val = ((s.getV x).toNat + c) % 64 := by
  simp only [State.spritePoints, Machine.mem_spritePoints, State.readBytes, Memory.length_readBytes,
    Memory.getElem_readBytes, Fin.ext_iff, Fin.val_ofNat, exists_prop]
  exact exists_congr fun r => by rw [exists_and_left]; rfl

theorem State.sprite_pixel (s : State) (x y n : Nibble) (p : Fin 32) (q : Fin 64) :
    (s.sprite x y n).1.pixel p q = (s.pixel p q ^^ decide ((p, q) ∈ s.spritePoints x y n)) := by
  have hlen : (s.readBytes s.i n.toNat).length ≤ 32 := by
    rw [State.readBytes, Memory.length_readBytes]
    exact n.isLt.le.trans (by decide)
  exact (Display.drawRows_spec _ _ _ hlen s.disp).1 p q

theorem exec_drw (x y n : Nibble) (s : State) :
    exec (.drw x y n) s = .next ((s.advance.setDisp (s.sprite x y n).1).setFlag (s.sprite x y n).2) := rfl

/-- After DRW a pixel is what it was, flipped if the sprite reaches it. -/
theorem exec_drw_pixel {x y n : Nibble} {s t : State} (h : exec (.drw x y n) s = .next t) (p : Fin 32) (q : Fin 64) :
    t.pixel p q = (s.pixel p q ^^ decide ((p, q) ∈ s.spritePoints x y n)) := by
  obtain rfl := Host.Outcome.next.inj h
  exact s.sprite_pixel x y n p q

/-- Settles O13: the points are flipped, and VF is the collision of `execDrw_VF`. -/
theorem drwFlipsExactlyTheSpritePixels : Obligations.DrwFlipsExactlyTheSpritePixels := by
  intro x y n s
  have hvf := execDrw_VF (exec_drw x y n s)
  refine ⟨_, exec_drw x y n s, fun p q => ?_, hvf.1, hvf.2, rfl, exec_frame (exec_drw x y n s)⟩
  rw [exec_drw_pixel (exec_drw x y n s), ← State.mem_spritePoints]
  by_cases hmem : (p, q) ∈ s.spritePoints x y n <;> simp [hmem]

/-- Settles O15: no row flips no point. -/
theorem drwOfNoRowsOnlyClearsVF : Obligations.DrwOfNoRowsOnlyClearsVF := by
  intro x y s
  have hsprite : s.sprite x y 0 = (s.disp, false) := rfl
  refine ⟨_, exec_drw x y 0 s, ?_, rfl, ?_⟩
  · rw [hsprite, State.getV_VF_setFlag]
    rfl
  · rw [hsprite]
    exact s.frame_advance_setV 0xF 0

/-- DRW keeps what the sprite's points are read from, unless VF is a coordinate. -/
theorem exec_drw_spritePoints {x y n : Nibble} {s t : State} (hx : x ≠ 0xF) (hy : y ≠ 0xF)
    (h : exec (.drw x y n) s = .next t) : t.spritePoints x y n = s.spritePoints x y n := by
  obtain rfl := Host.Outcome.next.inj h
  rw [State.spritePoints, State.getV_setFlag_of_ne _ _ hx, State.getV_setFlag_of_ne _ _ hy]
  rfl

/-- Settles O14: the second draw flips the same points back, and collides at the points the first one set. -/
theorem drwTwiceRestoresTheDisplay : Obligations.DrwTwiceRestoresTheDisplay := by
  intro x y n s hx hy
  obtain ⟨t, hfirst⟩ := exec_total (.drw x y n) s
  obtain ⟨u, hsecond⟩ := exec_total (.drw x y n) t
  have ht := exec_drw_pixel hfirst
  have hu : ∀ p q, u.pixel p q = s.pixel p q := fun p q => by
    rw [exec_drw_pixel hsecond, exec_drw_spritePoints hx hy hfirst, ht, Bool.xor_assoc, Bool.xor_self, Bool.xor_false]
  refine ⟨t, u, hfirst, hsecond, hu, ?_⟩
  have hcollides : u.getV 0xF = 1 ↔ ∃ p q, t.pixel p q = true ∧ u.pixel p q = false := by
    obtain rfl := Host.Outcome.next.inj hsecond
    simp only [State.getV_VF_setFlag_of_iff _ (t.sprite_collides_iff x y n), State.setFlag_pixel, State.setDisp_pixel]
    simp
  simp only [hcollides, hu, and_comm]

end Sys2Proof.Machine
end

section
/-!
SUPPORT and the proofs of O30 to O34 (spec/44_index_memory.md R152 to R156, 20_memory.md R60): the bytes that the transfers
put at I onward and take from there.
-/

namespace Sys2Proof.Machine

theorem toNat_lowNibble (b : Byte) : (lowNibble b).toNat = b.toNat % 16 := BitVec.toNat_setWidth ..

theorem exec_ldF (x : Nibble) (s : State) :
    exec (.ldF x) s = .next (s.advance.setI (s.env.glyphAddr (lowNibble (s.getV x)))) := rfl

/-- Settles O30: one index write, of the glyph's address. -/
theorem ldFPointsAtTheGlyph : Obligations.LdFPointsAtTheGlyph := by
  intro x s
  refine ⟨_, exec_ldF x s, ?_, rfl, s.frame_advance_setI _⟩
  rw [State.setI_i, Env.glyphAddr, BitVec.toNat_ofNat, toNat_lowNibble]

/-! ## Stores -/

theorem exec_ldB (x : Nibble) (s : State) :
    exec (.ldB x) s = .next (s.advance.writeBytes s.i (decimalDigits (s.getV x))) := rfl

theorem exec_storeRegs (x : Nibble) (s : State) :
    exec (.storeRegs x) s = .next (s.advance.writeBytes s.i (s.regsUpTo x)) := rfl

theorem addrsFrom_three (a : Word) : addrsFrom a 3 = [a, a + 1, a + 2] := by
  simp [addrsFrom, List.range_succ]

/-- Settles O31: the digits are the three bytes stored, each below 256. -/
theorem ldBStoresThreeDecimalDigits : Obligations.LdBStoresThreeDecimalDigits := by
  intro x s
  have hread : ∀ k (hk : k < 3), (s.advance.writeBytes s.i (decimalDigits (s.getV x))).readByte (s.i + BitVec.ofNat 16 k) =
      (decimalDigits (s.getV x))[k] := fun k hk =>
    State.readByte_writeBytes _ _ _ (by rw [length_decimalDigits]; decide) hk
  have hlt := (s.getV x).isLt
  refine ⟨_, exec_ldB x s, ?_, ?_, ?_, rfl, ?_⟩
  · have h0 := hread 0 (by decide)
    rw [BitVec.add_zero] at h0
    rw [h0]
    simp [decimalDigits]
    omega
  · exact (congrArg BitVec.toNat (hread 1 (by decide))).trans (by simp [decimalDigits]; omega)
  · exact (congrArg BitVec.toNat (hread 2 (by decide))).trans (by simp [decimalDigits]; omega)
  · exact addrsFrom_three s.i ▸ s.frame_advance_writeBytes s.i (decimalDigits (s.getV x))

/-- LD [I],Vx leaves V[k] at I + k, for each register it stores. -/
theorem readByte_of_exec_storeRegs {x : Nibble} {s t : State} (h : exec (.storeRegs x) s = .next t) {k : Nibble}
    (hk : k.toNat ≤ x.toNat) : t.readByte (s.i + k.setWidth 16) = s.getV k := by
  obtain rfl := Host.Outcome.next.inj h
  have hlen : k.toNat < (s.regsUpTo x).length := by rw [State.length_regsUpTo]; omega
  have hsize : (s.regsUpTo x).length ≤ Config.memSize := by
    rw [State.length_regsUpTo]
    exact x.isLt.trans (by decide)
  have hread := State.readByte_writeBytes s.advance s.i (s.regsUpTo x) hsize hlen
  rwa [State.getElem_regsUpTo, BitVec.ofNat_toNat, BitVec.ofNat_toNat, BitVec.setWidth_eq] at hread

/-- Settles O32. -/
theorem storeRegsCopiesV0ToVxToMemory : Obligations.StoreRegsCopiesV0ToVxToMemory := fun x s =>
  ⟨_, exec_storeRegs x s, fun _ hk => readByte_of_exec_storeRegs (exec_storeRegs x s) hk, rfl,
    exec_frame (exec_storeRegs x s)⟩

/-- Settles O34: V0 and V1 are stored at the two bytes the next fetch reads. -/
theorem storedWordIsFetchedNext : Obligations.StoredWordIsFetchedNext := by
  intro s hi
  obtain ⟨t, h⟩ := exec_total (.storeRegs 1) s
  have hpc : t.pc = s.i := (exec_pc_of_not_redirects h rfl).trans hi.symm
  have hhigh : t.readByte (s.i + 0#16) = s.getV 0 := readByte_of_exec_storeRegs h (k := 0) (by decide)
  have hlow : t.readByte (s.i + 1) = s.getV 1 := readByte_of_exec_storeRegs h (k := 1) (by decide)
  rw [BitVec.add_zero] at hhigh
  exact ⟨t, h, by rw [State.fetchWord, hpc, hhigh, hlow]⟩

/-! ## Loads -/

theorem exec_loadRegs (x : Nibble) (s : State) :
    exec (.loadRegs x) s = .next (s.advance.setRegsFrom0 (s.readBytes s.i (x.toNat + 1))) := rfl

/-- V[k] after LD Vx,[I]: the byte at I + k, or what it held if k is beyond x. -/
theorem getV_of_exec_loadRegs {x : Nibble} {s t : State} (h : exec (.loadRegs x) s = .next t) (k : Nibble) :
    t.getV k = if k.toNat ≤ x.toNat then s.readByte (s.i + k.setWidth 16) else s.getV k := by
  obtain rfl := Host.Outcome.next.inj h
  simp only [State.getV_setRegsFrom0, State.readBytes, Memory.length_readBytes, Nat.lt_succ_iff,
    Memory.getElem_readBytes, BitVec.ofNat_toNat, dite_eq_ite, State.advance_getV, State.readByte]

/-- Settles O33. -/
theorem loadRegsCopiesMemoryToV0ToVx : Obligations.LoadRegsCopiesMemoryToV0ToVx := by
  intro x s
  have hget := getV_of_exec_loadRegs (exec_loadRegs x s)
  refine ⟨_, exec_loadRegs x s, fun k hk => ?_, rfl, fun k hk => ?_, exec_frame (exec_loadRegs x s)⟩
  · rw [hget, if_pos hk]
  · rw [hget, if_neg (Nat.not_le_of_lt hk)]

end Sys2Proof.Machine
end

section
/-!
SUPPORT and the proofs of O35 to O40 (spec/45_timers_keys_random.md): the random byte, the key skips, the timer moves, and
the key wait from its start to the key press that completes it.
-/

namespace Sys2Proof.Machine

/-! ## RND -/

theorem exec_rnd (x : Nibble) (kk : Byte) (s : State) :
    exec (.rnd x kk) s = .next ((s.advance.setV x (s.env.nextRnd &&& kk)).setEnv s.env.afterRnd) := rfl

/-- Settles O35: one register write, of the drawn byte masked, and the draw. -/
theorem rndMasksTheDrawnByte : Obligations.RndMasksTheDrawnByte := by
  intro x kk s
  refine ⟨_, exec_rnd x kk s, fun k => ?_, rfl, rfl, exec_frame (exec_rnd x kk s)⟩
  rw [State.setEnv_getV, State.getV_setV_self, BitVec.getLsbD_and]

/-! ## SKP and SKNP -/

theorem keyDown_lowNibble (e : Env) (b : Byte) : e.keyDown (lowNibble b) = e.keys.getLsbD (b.toNat % 16) := by
  rw [Env.keyDown, toNat_lowNibble]

theorem exec_skp (x : Nibble) (s : State) : exec (.skp x) s =
    .next (s.setPc (if s.env.keys.getLsbD ((s.getV x).toNat % 16) = true then s.pc + 4 else s.pc + 2)) := by
  have hskip : exec (.skp x) s = .next (s.advance.skipIf (s.env.keyDown (lowNibble (s.getV x)))) := rfl
  rw [hskip, State.advance_skipIf, keyDown_lowNibble]

theorem exec_sknp (x : Nibble) (s : State) : exec (.sknp x) s =
    .next (s.setPc (if s.env.keys.getLsbD ((s.getV x).toNat % 16) = true then s.pc + 2 else s.pc + 4)) := by
  have hskip : exec (.sknp x) s = .next (s.advance.skipIf (!s.env.keyDown (lowNibble (s.getV x)))) := rfl
  rw [hskip, State.advance_skipIf, keyDown_lowNibble]
  simp only [Bool.not_eq_true', ← Bool.not_eq_true, ite_not]

/-- Settles O36: each skip is one write of PC, by 2 or by 4 as the key's level says. -/
theorem keySkipsReadTheLevel : Obligations.KeySkipsReadTheLevel := fun x s =>
  ⟨⟨_, exec_skp x s, s.setPc_pc _, s.frame_setPc _⟩, ⟨_, exec_sknp x s, s.setPc_pc _, s.frame_setPc _⟩⟩

/-! ## The timers -/

theorem exec_ldVxDt (x : Nibble) (s : State) : exec (.ldVxDt x) s = .next (s.advance.setV x s.dt) := rfl

theorem exec_ldDtVx (x : Nibble) (s : State) : exec (.ldDtVx x) s = .next (s.advance.setDt (s.getV x)) := rfl

theorem exec_ldStVx (x : Nibble) (s : State) : exec (.ldStVx x) s = .next (s.advance.setSt (s.getV x)) := rfl

/-- Settles O37: each is one write of its destination. -/
theorem timerMoves : Obligations.TimerMoves := fun x s =>
  ⟨⟨_, exec_ldVxDt x s, State.getV_setV_self _ x _, rfl, s.frame_advance_setV x _⟩,
    ⟨_, exec_ldDtVx x s, rfl, rfl, s.frame_advance_setDt _⟩, ⟨_, exec_ldStVx x s, rfl, rfl, s.frame_advance_setSt _⟩⟩

theorem toNat_decTimer (b : Byte) : (decTimer b).toNat = b.toNat - 1 := by
  unfold decTimer
  split
  · simp [*]
  · bv_omega

/-- In a live block the sound is on iff ST is not 0 (spec/60_exceptions.md R208). -/
theorem soundOn_of_live {s : State} (h : s.Live) : s.soundOn = true ↔ s.st ≠ 0 := by
  rcases h with hrun | ⟨x, hrun⟩ <;> simp only [State.soundOn, hrun, bne_iff_ne]

theorem soundOn_of_stopped {s : State} (h : s.Stopped) : s.soundOn = false := by
  rcases h with hrun | ⟨c, hrun⟩ <;> simp only [State.soundOn, hrun]

/-- Settles O38: ST is V[x] after the instruction, and one less, down to 0, after the Tick. -/
theorem ldStDecidesTheSound : Obligations.LdStDecidesTheSound := by
  intro x s hrun
  have hlive : (s.advance.setSt (s.getV x)).Live := .inl hrun
  have htick : (tick (s.advance.setSt (s.getV x))).Live := .inl ((tick_run _).trans hrun)
  have hdec := toNat_decTimer (s.getV x)
  refine ⟨_, exec_ldStVx x s, soundOn_of_live hlive, ?_⟩
  rw [soundOn_of_live htick, tick_of_live hlive, State.setSt_st, State.setSt_st]
  bv_omega

/-! ## The key wait -/

/-- Settles O39: one write of RUN. -/
theorem keyWaitStartsWithoutAdvance : Obligations.KeyWaitStartsWithoutAdvance := fun x s =>
  ⟨s.setRun (.awaitingKey x), rfl, rfl, rfl, s.frame_setRun _⟩

/-- Settles O40, by the run state. -/
theorem keyPressCompletesOnlyAPendingWait : Obligations.KeyPressCompletesOnlyAPendingWait := by
  intro k s hin
  have hstep : step s = .next (keyPress k s.dropInput) := step_of_nextInput hin
  refine ⟨fun x hrun => ?_, fun hrun => ?_⟩
  · have hpress := keyPress_of_awaiting k (s := s.dropInput) hrun
    refine ⟨_, hstep, ?_, ?_, ?_, keyPress_frame k (s := s.dropInput) hrun⟩
    · rw [hpress, State.setRun_getV, State.advance_getV, State.getV_setV_self]
      exact BitVec.toNat_setWidth_of_le (by decide)
    · rw [hpress]; rfl
    · rw [hpress]; rfl
  · rw [hstep, keyPress_of_not_awaiting k (s := s.dropInput) hrun]

end Sys2Proof.Machine
end

section
/-!
SUPPORT and the proofs of O41 to O43 and O50 (spec/60_exceptions.md R202, R207, R208, R210, 10_state.md R34): Tick and Halt
by the run state, what is left of a halted block, and the fields of STATUS.
-/

namespace Sys2Proof.Machine

/-- Settles O41, by the run state. -/
theorem tickDecrementsBothTimers : Obligations.TickDecrementsBothTimers := by
  intro s hin
  have hstep : step s = .next (tick s.dropInput) := step_of_nextInput hin
  refine ⟨_, hstep, ?_, tick_frame _, fun hlive => ?_, fun hstopped => ?_⟩
  · rcases s.dropInput.live_or_stopped with hlive | hstopped
    · rw [tick_of_live hlive]; rfl
    · rw [tick_of_stopped hstopped]; rfl
  · rw [tick_of_live (s := s.dropInput) hlive]
    exact ⟨toNat_decTimer s.dt, toNat_decTimer s.st⟩
  · rw [tick_of_stopped (s := s.dropInput) hstopped]
    exact ⟨rfl, rfl⟩

/-- Settles O42, by the run state. -/
theorem haltEventStopsTheBlock : Obligations.HaltEventStopsTheBlock := by
  intro s hin
  have hstep : step s = .next (haltBlock s.dropInput) := step_of_nextInput hin
  refine ⟨fun hlive => ?_, fun hstopped => ?_⟩
  · rw [haltBlock_of_live (s := s.dropInput) hlive] at hstep
    exact ⟨_, hstep, rfl, rfl, rfl, rfl, s.dropInput.frame_raiseFault _⟩
  · rw [hstep, haltBlock_of_stopped (s := s.dropInput) hstopped]

/-- A halted block takes an input other than PowerOnReset and Load without effect, but for the levels of the key pins. -/
theorem takeInput_of_halted {s : State} {c : Cause} {e : Input} (hrun : s.run = .halted c) (hreset : e ≠ .powerOnReset)
    (hload : ∀ image, e ≠ .load image) : ∃ env, takeInput e s = .next (s.setEnv env) := by
  have hstopped : s.Stopped := .inr ⟨c, hrun⟩
  cases e with
  | powerOnReset => exact absurd rfl hreset
  | load image => exact absurd rfl (hload image)
  | step => exact ⟨s.env, stepEvent_of_not_running (by simp [hrun])⟩
  | tick => exact ⟨s.env, congrArg Host.Outcome.next (tick_of_stopped hstopped)⟩
  | keyPress k => exact ⟨s.env, congrArg Host.Outcome.next (keyPress_of_not_awaiting k (by simp [hrun]))⟩
  | halt => exact ⟨s.env, congrArg Host.Outcome.next (haltBlock_of_stopped hstopped)⟩
  | keyLevels levels => exact ⟨_, rfl⟩

/-- Settles O43: the block's own state stays, and a halted block is silent. -/
theorem haltedIsLeftOnlyByResetOrLoad : Obligations.HaltedIsLeftOnlyByResetOrLoad := by
  intro s c hrun hreset hload
  obtain ⟨env, hstep⟩ := takeInput_of_halted (s := s.dropInput) hrun hreset hload
  exact ⟨_, hstep, rfl, soundOn_of_stopped (.inr ⟨c, hrun⟩)⟩

theorem not_live_of_stopped {s : State} (h : s.Stopped) : ¬ s.Live := by
  rcases h with hrun | ⟨c, hrun⟩ <;> simp [State.Live, hrun]

/-! ## STATUS (spec/10_state.md R34) -/

/-- The three fields of STATUS, and zero above them, read back from the packed word. -/
theorem extract_status (code : BitVec 2) (reg : Nibble) (cause : BitVec 3) (w : Word)
    (hw : w = code.setWidth 16 ||| (reg.setWidth 16 <<< 2) ||| (cause.setWidth 16 <<< 6)) :
    w.extractLsb' 0 2 = code ∧ w.extractLsb' 2 4 = reg ∧ w.extractLsb' 6 3 = cause ∧ w.extractLsb' 9 7 = 0 := by
  subst hw
  refine ⟨?_, ?_, ?_, ?_⟩
  all_goals
    apply BitVec.eq_of_getLsbD_eq
    intro k hk
    interval_cases k <;> simp

/-- Settles O50: the fields are packed side by side, and each is read from RUN. -/
theorem outputsShowTheRunState : Obligations.OutputsShowTheRunState := by
  intro s
  obtain ⟨hcode, hreg, hcause, hzero⟩ := extract_status _ _ _ s.status rfl
  rw [hcode, hreg, hcause]
  refine ⟨?_, ?_, ?_, hzero, ?_⟩
  · cases s.run <;> rfl
  · unfold State.waitReg
    cases s.run <;> rfl
  · unfold State.statusCause
    cases s.run <;> rfl
  · rcases s.live_or_stopped with hlive | hstopped
    · rw [soundOn_of_live hlive]
      exact ⟨fun h => ⟨h, hlive⟩, fun h => h.1⟩
    · rw [soundOn_of_stopped hstopped]
      exact ⟨nofun, fun h => absurd h.2 (not_live_of_stopped hstopped)⟩

end Sys2Proof.Machine
end

section
/-!
SUPPORT and the proofs of O45 to O49 (spec/70_reset_and_hazards.md R230, R231, 10_state.md R41): the memory after Init and
after a Load, PowerOnReset and Load value by value, and the order of inputs that arrive together.
-/

namespace Sys2Proof.Machine

/-! ## Init -/

/-- Below 4096 the address of a byte from a base is the sum of the two. -/
theorem cellOf_add_ofNat {a : Word} {k : Nat} (h : a.toNat + k < 4096) : cellOf (a + BitVec.ofNat 16 k) = a.toNat + k := by
  have hsize : Config.memSize = 4096 := rfl
  rw [cellOf, hsize, BitVec.toNat_add, BitVec.toNat_ofNat]
  omega

/-- Settles O46: a well-formed font lies below 0x200, so that each of its bytes has its own cell there. -/
theorem initMemoryIsFontAndZero : Obligations.InitMemoryIsFontAndZero := by
  intro f hwf a ha
  obtain ⟨hbase, hlen, -⟩ := (Font.wellFormed_iff f).mp hwf
  have hcell : ∀ k < f.data.length, cellOf (f.base + BitVec.ofNat 16 k) = f.base.toNat + k :=
    fun k hk => cellOf_add_ofNat (by omega)
  split
  · rename_i hfont
    obtain ⟨k, rfl⟩ : ∃ k, a = f.base.toNat + k := ⟨a - f.base.toNat, by omega⟩
    have hk : k < f.data.length := by omega
    have hsize : f.data.length ≤ Config.memSize := by rw [hlen]; decide
    have hread := Memory.read_initial_font f hsize hk
    rw [hcell k hk] at hread
    rw [hread, Nat.add_sub_cancel_left, List.getD_eq_getElem _ _ hk]
  · rename_i hother
    refine Memory.read_initial_zero f fun k hk hak => hother ?_
    rw [hcell k hk] at hak
    omega

/-- The registers, the stack, the display and the fault record have the initial values of R230. -/
structure InitialValues (t : State) : Prop where
  i : t.i = 0
  sp : t.sp = 0
  dt : t.dt = 0
  st : t.st = 0
  regs : ∀ k, t.getV k = 0
  stack : ∀ (k : Nat) (_h : k < 16), t.stack[k] = 0
  screen : ∀ p q, t.pixel p q = false

theorem State.initialValues_init (s : State) : InitialValues s.init where
  i := rfl
  sp := rfl
  dt := rfl
  st := rfl
  regs _ := Vector.getElem_replicate _
  stack _ := Vector.getElem_replicate
  screen := Display.pixel_clear

/-- Settles O45: PowerOnReset is Init and Idle. -/
theorem powerOnResetValues : Obligations.PowerOnResetValues := by
  intro s hin
  have hstep : step s = .next (powerOnReset s.dropInput) := step_of_nextInput hin
  obtain ⟨hi, hsp, hdt, hst, hregs, hstack, hscreen⟩ := s.dropInput.initialValues_init
  exact ⟨_, hstep, rfl, rfl, hi, hsp, hdt, hst, hregs, hstack, hscreen, rfl, rfl, rfl, rfl, rfl⟩

/-! ## Load -/

/-- Settles O48: the image is not written; Init's state faults. -/
theorem loadRefusesAnOverlargeImage : Obligations.LoadRefusesAnOverlargeImage := by
  intro image s hin hlarge
  have hstep : step s = .next (loadImage image s.dropInput) := step_of_nextInput hin
  rw [loadImage_of_overlarge _ hlarge] at hstep
  obtain ⟨hi, hsp, hdt, hst, hregs, hstack, hscreen⟩ := s.dropInput.initialValues_init
  exact ⟨_, hstep, rfl, rfl, rfl, rfl, hi, hsp, hdt, hst, hregs, hstack, hscreen, rfl, rfl, rfl⟩

/-- The cells of an image that fits, one by one from 0x200 on. -/
theorem cellOf_loadBase_add {k : Nat} (h : k < 3584) : cellOf (Config.loadBase + BitVec.ofNat 16 k) = 0x200 + k :=
  cellOf_add_ofNat (a := Config.loadBase) (show 0x200 + k < 4096 by omega)

theorem Memory.read_writeBytes_image (m : Memory) {image : List Byte} (hfits : image.length ≤ 3584) {k : Nat}
    (hk : k < image.length) : (m.writeBytes Config.loadBase image).read (0x200 + k) = image[k] := by
  have hsize : image.length ≤ Config.memSize := hfits.trans (Nat.le_of_ble_eq_true rfl)
  rw [← cellOf_loadBase_add (by omega)]
  exact Memory.read_writeBytes m Config.loadBase image hsize hk

theorem Memory.read_writeBytes_outside_image (m : Memory) {image : List Byte} (hfits : image.length ≤ 3584) {a : Nat}
    (ha : a < 0x200 ∨ 0x200 + image.length ≤ a) : (m.writeBytes Config.loadBase image).read a = m.read a := by
  refine Memory.read_writeBytes_of_ne m Config.loadBase image fun k hk => ?_
  rw [cellOf_loadBase_add (by omega)]
  omega

/-- Bytes written to memory, and RUN, are no part of the initial values. -/
theorem InitialValues.writeBytes_setRun {t : State} (h : InitialValues t) (a : Word) (bs : List Byte) (r : RunState) :
    InitialValues ((t.writeBytes a bs).setRun r) :=
  ⟨h.i, h.sp, h.dt, h.st, h.regs, h.stack, h.screen⟩

/-- Settles O47: Init, the image written over its memory, and Running. -/
theorem loadStartsAnImageThatFits : Obligations.LoadStartsAnImageThatFits := by
  intro image s hin hfits
  have hstep : step s = .next (loadImage image s.dropInput) := step_of_nextInput hin
  rw [loadImage_of_fits _ hfits] at hstep
  obtain ⟨hi, hsp, hdt, hst, hregs, hstack, hscreen⟩ :=
    s.dropInput.initialValues_init.writeBytes_setRun Config.loadBase image .running
  exact ⟨_, hstep, rfl, rfl, hi, hsp, hdt, hst, hregs, hstack, hscreen, rfl, rfl,
    fun k hk => Memory.read_writeBytes_image _ hfits hk, fun a _ ha => Memory.read_writeBytes_outside_image _ hfits ha⟩

/-! ## The order of inputs that arrive together -/

theorem orderInputs_perm (es : List Input) : (orderInputs es).Perm es := by
  induction es with
  | nil => exact .refl _
  | cons e es ih => exact (insertInput_perm e _).trans (ih.cons e)

theorem orderInputs_pairwise (es : List Input) : (orderInputs es).Pairwise (fun a b => a.rank ≤ b.rank) := by
  induction es with
  | nil => exact .nil
  | cons e es ih => exact insertInput_pairwise e ih

theorem orderInputs_filter (es : List Input) (r : Nat) :
    (orderInputs es).filter (fun e => e.rank == r) = es.filter (fun e => e.rank == r) := by
  induction es with
  | nil => rfl
  | cons e es ih =>
    rw [orderInputs, insertInput_filter, List.filter_cons, List.filter_cons, ih]

/-- Settles O49: ordering is an insertion sort by rank, stable since an input goes before those of its own rank. -/
theorem simultaneousInputsAreOrdered : Obligations.SimultaneousInputsAreOrdered := by
  refine ⟨fun s es => ⟨orderInputs es, rfl, orderInputs_perm es, orderInputs_pairwise es, orderInputs_filter es⟩,
    fun levels levels' image image' j k => ?_⟩
  have hk := k.isLt
  simp [Input.rank]
  omega

end Sys2Proof.Machine
end
